-- ==== Sys2Proof/Word.lean ====
section
/-! DEFINITION. The words, indexes and tables of the block, each at the width the spec gives it (rules R6, R8).

Every value of the block is an unsigned integer of a stated width and bit 0 is its least significant bit (R8).
What the spec slices or drives on wires is a bit vector; what only indexes is a `Fin`. -/

namespace Sys2Proof

/-- A command word, `CMD[67:0]` (R71): `OP` at `[67:64]`, `Y` at `[63:32]`, `X` at `[31:0]`. -/
abbrev CommandWord := BitVec 68

/-- A word of the mapping ROM, 32 bits (R78). -/
abbrev RomWord := BitVec 32

/-- A scan index `I` or a multiplexer address on `SEL`, 4 bits (R23, R25). -/
abbrev Addr := BitVec 4

/-- A sample of the four output lines, bit `j` the level of line `j` (R26). -/
abbrev Sample := BitVec 4

/-- One board row register, 8 bits, bit `c` the cell in column `c` (R21). -/
abbrev RowBits := BitVec 8

/-- A storage coordinate, row or column, in 0..7 (R19, R51). -/
abbrev Coord := Fin 8

/-- A multiplexer output line `j`, in 0..3 (R18). -/
abbrev Line := Fin 4

/-- The board: the eight row registers `BRD[0]` to `BRD[7]` (R21). -/
abbrev Board := Vector RowBits 8

/-- The contents of the mapping ROM, sixteen words addressed by scan index (R50). -/
abbrev MapTable := Vector RomWord 16

/-- One 4-bit value per multiplexer address: what the environment shows at one clock edge, or at all of them
(a *static stub*, R13). -/
abbrev Stub := Vector Sample 16

/-- A 4-bit address or scan index as an index into a sixteen-entry table; nothing is lost (R50, R59). -/
def index16 (a : Addr) : Fin 16 := ⟨a.toNat, a.isLt⟩

end Sys2Proof
end

