-- ==== Sys2Proof/Syntax.lean ====
section
/-! DEFINITION. The command set: one constructor per row of spec/opcode_table.json (rule R74).

A constructor carries the operands the command USES (R74, column "operands used"; R86) and no others: the operand
fields a command ignores (R76) are no part of the command. An operand is an unsigned integer, as in the listing
syntax of R86; that it fits its 32-bit field is the well-formedness check of WellFormed.lean. -/

namespace Sys2Proof

/-- The five commands of the block (R74). -/
inductive Instr where
  /-- `SCAN`: one full scan cycle of sixteen steps (R125). -/
  | scan
  /-- `GETSQ x, y`: read the cell at public coordinates `(x, y)` (R141). -/
  | getsq (x y : Nat)
  /-- `GETROW r`: read storage row `r` whole (R143). -/
  | getrow (r : Nat)
  /-- `SETA a`: put address `a` on the select lines (R101). -/
  | seta (a : Nat)
  /-- `RDO`: sample the four output lines (R104). -/
  | rdo
  deriving DecidableEq, Repr

end Sys2Proof
end

