-- ==== Sys2Proof/WellFormed.lean ====
section
/-! DEFINITION. Which commands have an encoding: every operand lies in 0..4294967295 (rules R72, R86).

The assembler "rejects anything else and never truncates" (R86). Whether an operand lies in the range its command
accepts (0..7, 0..15) is no matter of form: an operand out of that range is encodable, and the machine answers
`BOUNDS_ERROR` for it (R159). -/

namespace Sys2Proof

/-- An operand fits its 32-bit field (R72: "unsigned 32-bit integers in 0..4294967295"). -/
def operandFits (v : Nat) : Bool := decide (v < 2 ^ 32)

/-- The command can be written as a command word (R86). -/
def Instr.wellFormed : Instr → Bool
  | .scan => true
  | .getsq x y => operandFits x && operandFits y
  | .getrow r => operandFits r
  | .seta a => operandFits a
  | .rdo => true

end Sys2Proof
end

