-- ==== Sys2Proof/Decode.lean ====
section
/-! DEFINITION. The command word format C, the decoder and the encoder (rules R70 to R76, R86).

Decoding is total on all `2^68` words and reads `OP` only (R73); an opcode without a command is rejected by name
(R75). What the machine answers for it (`ILLEGAL_COMMAND`, or `CONFIG_ERROR` first) is illegalCommandEdge (Machine/Sequencer.lean). -/

namespace Sys2Proof

/-- `OP = CMD[67:64]` (R71). -/
def CommandWord.op (w : CommandWord) : BitVec 4 := w.extractLsb' 64 4

/-- `Y = CMD[63:32]` (R71, R72). -/
def CommandWord.y (w : CommandWord) : BitVec 32 := w.extractLsb' 32 32

/-- `X = CMD[31:0]` (R71, R72). -/
def CommandWord.x (w : CommandWord) : BitVec 32 := w.extractLsb' 0 32

/-- The word `{OP, Y, X}` (R71, R86: "`OP << 64 | Y << 32 | X`"). -/
def commandWord (op : BitVec 4) (y x : BitVec 32) : CommandWord := (op ++ y ++ x : BitVec (4 + 32 + 32))

/-- Why a word is no command. -/
inductive DecodeError where
  /-- The opcode is `0x0` or one of `0x6` to `0xF`: illegal, reserved by the spec (R75). -/
  | illegalOpcode (op : BitVec 4)
  deriving DecidableEq, Repr

/-- The decoder (R73, R74): the opcode selects the command, the operands are taken as they stand, unsigned and
unscaled (R72), and the fields a command ignores are not looked at (R76). -/
def decode (w : CommandWord) : Except DecodeError Instr :=
  match w.op with
  | 0x1#4 => .ok .scan
  | 0x2#4 => .ok (.getsq w.x.toNat w.y.toNat)
  | 0x3#4 => .ok (.getrow w.x.toNat)
  | 0x4#4 => .ok (.seta w.x.toNat)
  | 0x5#4 => .ok .rdo
  | op => .error (.illegalOpcode op)

/-- The opcode of a command (R74). -/
def Instr.opcode : Instr → BitVec 4
  | .scan => 0x1
  | .getsq _ _ => 0x2
  | .getrow _ => 0x3
  | .seta _ => 0x4
  | .rdo => 0x5

/-- What a command puts in `Y`; zero where it uses no second operand (R74, R86). -/
def Instr.yField : Instr → BitVec 32
  | .getsq _ y => BitVec.ofNat 32 y
  | .scan | .getrow _ | .seta _ | .rdo => 0

/-- What a command puts in `X`; zero where it uses no operand (R74, R86). -/
def Instr.xField : Instr → BitVec 32
  | .getsq x _ => BitVec.ofNat 32 x
  | .getrow r => BitVec.ofNat 32 r
  | .seta a => BitVec.ofNat 32 a
  | .scan | .rdo => 0

/-- The word of a well-formed command, its unused fields zero (R86). -/
def encode (i : Instr) : CommandWord := commandWord i.opcode i.yField i.xField

/-- The command word on the 68 wires of `CMD` when an instruction of `nbits` bits with value `w`, numbered as
spec/opcode_table.json numbers them, is presented: bit `k` of `w` on `CMD[k]`, every bit from `nbits` up zero. -/
def tableCommand (nbits w : Nat) : CommandWord := BitVec.ofNat 68 (w % 2 ^ nbits)

/-- What the decoder reads from such an instruction. One command is one word presented in parallel (R56), so there
is no byte order to undo. -/
def decodeTableWord (nbits w : Nat) : Option Instr := (decode (tableCommand nbits w)).toOption

end Sys2Proof
end

