-- ==== Sys2Proof/Config.lean ====
section
/-! DEFINITION. The open parameters of an instance, the reference tables, and the values nothing constrains.

`MAP` and `SETTLE_CYCLES` are parameters of the step relation (rules R7, R20, R32). Here they are one record,
`Params`, which State carries and no step changes, so that every statement over all states is a statement over all
tables and all settling counts. `T_CLK` occurs only in the settling contract (R107), which stands in Safety.lean. -/

namespace Sys2Proof

/-- What is fixed when an instance is built: `MAP` (R7, R32, R117) and `SETTLE_CYCLES` (R7, D19). -/
structure Params where
  /-- `MAP[0..15]`, the contents of the mapping ROM. -/
  map : MapTable
  /-- `SETTLE_CYCLES`, the settling interval in clock cycles; at least 1 in a built instance (R7). -/
  settleCycles : Nat
  deriving DecidableEq, Repr

/-- FREE VALUE. The sensor oracle `Env` (R13) at clock edges past those that State's environment schedule lists:
the settled levels of the four output lines for an edge number and an address. "The block places no constraint on
`Env`". See notes/assumptions/3.md. -/
opaque Config.env : Nat → Addr → Sample

/-- FREE VALUE. The 4-bit value an UNSETTLED sample takes, for the number of the sampling edge: "a model draws it
freely, under no law, anew at each such sample" (R105, U1). See notes/assumptions/2.md. -/
opaque Config.freeSample : Nat → Sample

/-- The reference table `MAP_LINEAR` (R121): with `n = 4i + j`, row `n >> 3`, column `n & 7`. -/
def mapLinear : MapTable :=
  #v[0x30201000, 0x70605040, 0x31211101, 0x71615141, 0x32221202, 0x72625242, 0x33231303, 0x73635343,
     0x34241404, 0x74645444, 0x35251505, 0x75655545, 0x36261606, 0x76665646, 0x37271707, 0x77675747]

/-- The reference table `MAP_TRANSPOSE` (R121): with `n = 4i + j`, row `n & 7`, column `n >> 3`. -/
def mapTranspose : MapTable :=
  #v[0x03020100, 0x07060504, 0x13121110, 0x17161514, 0x23222120, 0x27262524, 0x33323130, 0x37363534,
     0x43424140, 0x47464544, 0x53525150, 0x57565554, 0x63626160, 0x67666564, 0x73727170, 0x77767574]

/-- The source's own example table, which is NOT valid (R122, conflict C2). -/
def mapSourceIdentity : MapTable :=
  #v[0x03020100, 0x13121110, 0x23222120, 0x33323130, 0x43424140, 0x53525150, 0x63626160, 0x73727170,
     0x83828180, 0x93929190, 0xA3A2A1A0, 0xB3B2B1B0, 0xC3C2C1C0, 0xD3D2D1D0, 0xE3E2E1E0, 0xF3F2F1F0]

/-- DESIGN CHOICE (notes/assumptions/1.md): the instance `State.reset` is an instance of. The spec leaves both
parameters open; this takes its first reference table and the least legal settling count. -/
def referenceParams : Params := { map := mapLinear, settleCycles := 1 }

end Sys2Proof
end

