-- ==== Sys2Proof/Machine/State.lean ====
section
/-! DEFINITION. The state of the block, its stops, and the state after reset (rules R20 to R36, R180).

The registers are R20's list, all of it. Beside them stand the model's own fields: the parameters of the instance,
and what the two other agents of R15 do, the host and the environment, each as a schedule with one entry per coming
clock edge. A step is one rising edge of `CLK`; it consumes one entry of each schedule. -/

namespace Sys2Proof.Machine

open Sys2Proof

/-- `PH`, the phase of the sequencer (R24). -/
inductive Phase where
  /-- No scan is running; commands are accepted. Code 0. -/
  | idle
  /-- Scan step `I` is about to put `GRAY(I)` on the select lines. Code 1. -/
  | addr
  /-- The settling interval of step `I` is running and ends with the sample. Code 2. -/
  | wait
  /-- The four cells of step `I` are about to be written. Code 3. -/
  | writ
  deriving DecidableEq, Repr

/-- `RSP_STATUS` (R29, R155). All four codes of the 2-bit register have a name. -/
inductive Status where
  /-- No error. Code 0. -/
  | ok
  /-- An operand outside its range (R159). Code 1. -/
  | boundsError
  /-- The mapping table is not valid (R157). Code 2. -/
  | configError
  /-- The opcode has no command (R158). Code 3. -/
  | illegalCommand
  deriving DecidableEq, Repr

/-- What the host drives at one clock edge (R35): `RST`, `CMD_VALID` and `CMD[67:0]`. -/
structure HostEdge where
  rst : Bool
  cmdValid : Bool
  cmd : CommandWord
  deriving DecidableEq, Repr

/-- The state. -/
structure State where
  /-- `BRD[0..7]`, the board row registers, 8 bits each (R21). -/
  brd : Board
  /-- `I`, the scan index, 4 bits (R23). -/
  i : Addr
  /-- `PH`, the phase (R24). -/
  ph : Phase
  /-- `SEL`, the select register, 4 bits, on the pins `SEL[3:0]` at all times (R25). -/
  sel : Addr
  /-- `SMP`, the sample register, 4 bits (R26). -/
  smp : Sample
  /-- `AGE`, the settle counter, an integer register with values 0..`SETTLE_CYCLES` (R31). -/
  age : Nat
  /-- `RSP_VALID` (R29). -/
  rspValid : Bool
  /-- `RSP_STATUS` (R29). -/
  rspStatus : Status
  /-- `RSP_DATA`, 8 bits (R29). -/
  rspData : BitVec 8
  /-- MODEL'S OWN. The parameters of the instance, `MAP` and `SETTLE_CYCLES` (R7, R32); no step changes them. -/
  params : Params
  /-- MODEL'S OWN. How many clock edges have passed; the edge being taken has number `edge + 1`. The time argument
  of `Env` (R13), and what makes each free draw a fresh one (R105). No register of the block. -/
  edge : Nat
  /-- MODEL'S OWN. What the host drives at the coming edges, the next one first; past its end the host is quiet
  (`RST = 0`, `CMD_VALID = 0`). -/
  hostIn : List HostEdge
  /-- MODEL'S OWN. The sensor oracle at the coming edges, the next one first: entry `k` is `Env(t, ·)` for the
  `k`-th coming edge `t` (R13); past its end `Env` is the free value `Config.env`. -/
  env : List Stub
  deriving DecidableEq, Repr

/-- Why the machine stops. -/
inductive Fault where
  /-- Raised by the `WRIT` edge of a scan step whose ROM word holds an element above 7: "a model that runs this
  rule on an unvalidated table must fault on an element above 7 rather than slice it" (R130, D36, U7). No state
  with the invariant of Safety.lean raises it, since no scan starts on an invalid table (R157). SAFE. -/
  | romElementAboveSeven (i : Addr)
  deriving DecidableEq, Repr

/-- Why the model gives an instruction no meaning. -/
inductive Refusal where
  /-- Raised by an arm of `exec` whose instruction has no meaning yet, with its mnemonic. SAFE. No arm of this
  model raises it. -/
  | notModelled (mnemonic : String)
  deriving DecidableEq, Repr

/-- The machine right after the reset edge of an instance with parameters `p`: every register at the value R180
states. The reset edge is edge 1 (95_test_vectors.md, Conventions); the host is quiet and nothing is known of the
environment. -/
def State.resetOf (p : Params) : State where
  brd := Vector.replicate 8 0
  i := 0
  ph := .idle
  sel := 0
  smp := 0
  age := 0
  rspValid := false
  rspStatus := .ok
  rspData := 0
  params := p
  edge := 1
  hostIn := []
  env := []

/-- The machine right after reset. The registers are R180's; the instance is `referenceParams`
(notes/assumptions/1.md). -/
def State.reset : State := State.resetOf referenceParams

end Sys2Proof.Machine
end

