-- ==== Sys2Proof/Machine/Operands.lean ====
section
/-! DEFINITION. Operand forms and the arithmetic on them: the Gray function, coordinates, slices (files 40 and 44).

All of it is unsigned, and nothing wraps but what a rule says wraps (rules R95, R146). -/

namespace Sys2Proof.Machine

open Sys2Proof

/-- `GRAY(i) = i XOR (i >> 1)` on 4 bits, the multiplexer address of scan index `i` (micro-operation `uGRAY`,
R90). -/
def gray (i : Addr) : Addr := i ^^^ (i >>> 1)

/-- `GRAYINV(a)`, the scan index at which address `a` is visited (R92): bit `k` is the exclusive or of the bits of
`a` from `k` up. The block has no hardware for it. -/
def grayInv (a : Addr) : Addr := a ^^^ (a >>> 1) ^^^ (a >>> 2) ^^^ (a >>> 3)

/-- `popcount` of a 4-bit value (R9). -/
def popcount4 (v : BitVec 4) : Nat :=
  (v.getLsbD 0).toNat + (v.getLsbD 1).toNat + (v.getLsbD 2).toNat + (v.getLsbD 3).toNat

/-- `NOT b` on one bit: the polarity inversion of micro-operation `uDECODE(j)` (R129), sample bit 0 to occupied. -/
def uDecode (smp : Sample) (j : Line) : Bool := !smp.getLsbD j

/-- A 4-bit ROM element as a storage coordinate; `none` above 7, never sliced to 3 bits (R79, R130). -/
def coord? (v : BitVec 4) : Option Coord := if h : v.toNat < 8 then some ⟨v.toNat, h⟩ else none

/-- An operand as a coordinate or storage row in 0..7: the comparison `X > 7` is on the whole operand and only then
is the slice `X[2:0]` taken (R72, R146). `none` is out of bounds. -/
def boardOperand? (v : Nat) : Option Coord := if h : v < 8 then some ⟨v, h⟩ else none

/-- An operand as a multiplexer address in 0..15: `X > 15` on the whole operand, then `X[3:0]` (R72, R101). -/
def addrOperand? (v : Nat) : Option Addr := if v ≤ 15 then some (BitVec.ofNat 4 v) else none

/-- `7 - y`, the coordinate flip of `GETSQ` (R140); on 0..7 it cannot underflow. -/
def flip (y : Coord) : Coord := ⟨7 - y.val, by omega⟩

/-- The storage cell of public coordinates, `row = 7 - y`, `col = x` (R140). -/
def storageCell (x y : Coord) : Coord × Coord := (flip y, x)

/-- A bit as a response byte, `zext_8` (R77, R141). -/
def bitByte (b : Bool) : BitVec 8 := (BitVec.ofBool b).zeroExtend 8

end Sys2Proof.Machine
end

