-- ==== Sys2Proof/Machine/Rom.lean ====
section
/-! DEFINITION. The mapping table ROM: its words, its lookup and its validity (file 42; rules R11, R50, R78, R79).

The ROM is addressed by the SCAN INDEX, never by the multiplexer address (R50, R115, conflict C1). -/

namespace Sys2Proof.Machine

open Sys2Proof

/-- `RomRead(i) = MAP[i]`; it has no side effect and cannot fail (R11). -/
def romRead (m : MapTable) (i : Addr) : RomWord := m[index16 i]

/-- Element `k` of a ROM word, bits `[4k+3:4k]` (R78). -/
def romElement (w : RomWord) (k : Fin 8) : BitVec 4 := w.extractLsb' (4 * k.val) 4

/-- The pair `(row, col)` of line `j` in a ROM word: elements `2j` and `2j + 1`, that is `w[8j+3:8j]` and
`w[8j+7:8j+4]` (R11, R115). -/
def romPair (w : RomWord) (j : Line) : BitVec 4 × BitVec 4 :=
  (w.extractLsb' (8 * j.val) 4, w.extractLsb' (8 * j.val + 4) 4)

/-- `MapPair(i, j)` (R11), the result of micro-operation `uLOOKUP(i, j)` (R115). -/
def mapPair (m : MapTable) (i : Addr) (j : Line) : BitVec 4 × BitVec 4 := romPair (romRead m i) j

/-- The storage cell line `j` of a ROM word names; `none` if an element of the pair is above 7 (R79, R130). -/
def romCell? (w : RomWord) (j : Line) : Option (Coord × Coord) :=
  match coord? (romPair w j).1, coord? (romPair w j).2 with
  | some r, some c => some (r, c)
  | _, _ => none

/-- The four lines in the order of the decode loop, `j = 0, 1, 2, 3` (R130). -/
def lines : List Line := [0, 1, 2, 3]

/-- The sixteen scan indexes in scan order (R93). -/
def scanIndexes : List Addr := (List.range 16).map (BitVec.ofNat 4)

/-- The 64 channel coordinates `(i, j)` (R52, R118). -/
def channels : List (Addr × Line) := scanIndexes.flatMap fun i => lines.map fun j => (i, j)

/-- The flattened table: the 64 pairs `MapPair(i, j)` (R118). -/
def mapPairs (m : MapTable) : List (BitVec 4 × BitVec 4) := channels.map fun c => mapPair m c.1 c.2

/-- R118 (a): every element of every word is at most 7. -/
def rangeOk (m : MapTable) : Bool :=
  scanIndexes.all fun i => (List.finRange 8).all fun k => decide (romElement (romRead m i) k ≤ 7)

/-- R118 (b): the 64 pairs are pairwise distinct. -/
def injectiveOk (m : MapTable) : Bool := decide (mapPairs m).Nodup

/-- `Valid(MAP)` (R118). -/
def validMap (m : MapTable) : Bool := rangeOk m && injectiveOk m

/-- One turn of R119's loop over the state `(seen, ok)`. -/
def seenStep (acc : BitVec 64 × Bool) (p : BitVec 4 × BitVec 4) : BitVec 64 × Bool :=
  if p.1 > 7 ∨ p.2 > 7 ∨ acc.1.getLsbD (8 * p.1.toNat + p.2.toNat) = true then (acc.1, false)
  else (acc.1 ||| (1#64 <<< (8 * p.1.toNat + p.2.toNat)), acc.2)

/-- R119's loop: a 64-bit mask `seen` and a flag `ok`, over the 64 pairs in order. -/
def seenScan (m : MapTable) : BitVec 64 × Bool := (mapPairs m).foldl seenStep (0, true)

/-- `Valid` as R119 computes it. The machine uses `validMap`; that the two agree is an obligation. -/
def validBySeen (m : MapTable) : Bool := (seenScan m).2

end Sys2Proof.Machine
end

