-- ==== Sys2Proof/Machine/Ops.lean ====
section
/-! DEFINITION. The named operations over the registers, the cells and the sensors; errors; reset
(rules R10 to R13, R21, R29, R31, R51, R100, R103, R105, R156, R180).

`R <- v` takes effect at the edge and every right-hand side sees the values before it (R10). An edge therefore starts
from `edgeDefaults s`, the registers after the defaults of R190, and reads its sources from `s`. -/

namespace Sys2Proof.Machine

open Sys2Proof

/-! ### The board -/

/-- `CellRead(r, c) = BRD[r][c]` (R11). -/
def cellRead (b : Board) (r c : Coord) : Bool := b[r].getLsbD c

/-- A row register with bit `c` set to `v` and the other seven bits unchanged (R10). -/
def setCol (row : RowBits) (c : Coord) (v : Bool) : RowBits :=
  if v then row ||| (1#8 <<< c.val) else row &&& ~~~(1#8 <<< c.val)

/-- `CellWrite(r, c, v)`, that is `BRD[r][c] <- v` (R11). -/
def cellWrite (b : Board) (r c : Coord) (v : Bool) : Board := b.set r.val (setCol b[r] c v) r.isLt

/-- `uWRITE` over the given lines in order (R130): line `j` of ROM word `w` names the cell, the decoded sample bit is
stored outright, and a later line wins on the same cell. `none` on an element above 7. -/
def writeLines (w : RomWord) (smp : Sample) : List Line → Board → Option Board
  | [], b => some b
  | j :: js, b =>
    match romCell? w j with
    | some (r, c) => writeLines w smp js (cellWrite b r c (uDecode smp j))
    | none => none

/-- Cell `(r, c)` of the state's board, the grid view (R22). -/
def State.cell (s : State) (r c : Coord) : Bool := cellRead s.brd r c

/-! ### The inputs at the coming edges -/

/-- A host that drives neither `RST` nor `CMD_VALID`. -/
def HostEdge.quiet : HostEdge := { rst := false, cmdValid := false, cmd := 0 }

/-- A host that offers one command word. -/
def HostEdge.offer (w : CommandWord) : HostEdge := { rst := false, cmdValid := true, cmd := w }

/-- A host that applies reset. -/
def HostEdge.reset : HostEdge := { rst := true, cmdValid := false, cmd := 0 }

/-- What the host drives at the `k`-th coming edge, `k = 0` the next one; quiet past the schedule's end. -/
def State.hostAt (s : State) (k : Nat) : HostEdge := s.hostIn[k]?.getD HostEdge.quiet

/-- `Env(t, a)` at the `k`-th coming edge `t` (R13): the scheduled stub, or the free value past the schedule's
end. -/
def State.envAt (s : State) (k : Nat) (a : Addr) : Sample :=
  match s.env[k]? with
  | some stub => stub[index16 a]
  | none => Config.env (s.edge + 1 + k) a

/-- The register `AGE` reads `SETTLE_CYCLES` (R105). -/
def State.settled (s : State) : Bool := s.age == s.params.settleCycles

/-- `SenseRead()` at the next edge (R13, R105): the true levels of the four lines at address `SEL` if the sample is
settled; otherwise a free 4-bit value, drawn anew. -/
def State.senseRead (s : State) : Sample :=
  if s.settled then s.envAt 0 s.sel else Config.freeSample (s.edge + 1)

/-! ### Register writes at an edge -/

/-- The ordinary count of `AGE` at an edge that does not write `SEL` (R31). -/
def ageCount (p : Params) (age : Nat) : Nat := if age < p.settleCycles then age + 1 else age

/-- The defaults of every edge with `RST = 0` (R190): `RSP_VALID <- 0`, and `AGE` counts. The edge has passed, and
with it one entry of each schedule. -/
def edgeDefaults (s : State) : State :=
  { s with
    rspValid := false
    age := ageCount s.params s.age
    edge := s.edge + 1
    hostIn := s.hostIn.tail
    env := s.env.tail }

/-- `respond(status, data)` (R12). -/
def respond (d : State) (status : Status) (data : BitVec 8) : State :=
  { d with rspValid := true, rspStatus := status, rspData := data }

/-- Taking an error, the block's one "trap entry" (R12, R156, R162): `respond(code, 0)` and nothing else. Nothing is
saved, no mode changes, control goes nowhere. There is no return from it: R163. -/
def raiseError (d : State) (code : Status) : State := respond d code 0

/-- Micro-operation `uSETA(a)`: `SEL <- a; AGE <- 0`, also when `a` is the value held (R100). -/
def uSetA (d : State) (a : Addr) : State := { d with sel := a, age := 0 }

/-- Micro-operation `uRDO`: `SMP <- v`, the levels as read, not inverted (R103). -/
def uRdo (d : State) (v : Sample) : State := { d with smp := v }

/-- `PH <- p` (R24). -/
def setPhase (d : State) (p : Phase) : State := { d with ph := p }

/-- `I <- v` (R23). -/
def setIndex (d : State) (v : Addr) : State := { d with i := v }

/-- The row registers take new values (R21). -/
def setBoard (d : State) (b : Board) : State := { d with brd := b }

/-! ### Reset -/

/-- An edge with `RST = 1` (R180): all registers take their reset values together and nothing else happens.
`MAP` and `SETTLE_CYCLES` are untouched (R181); a scan in progress is abandoned (R182). -/
def resetEdge (s : State) : State :=
  { s with
    brd := Vector.replicate 8 0
    i := 0
    ph := .idle
    sel := 0
    smp := 0
    age := 0
    rspValid := false
    rspStatus := .ok
    rspData := 0
    edge := s.edge + 1
    hostIn := s.hostIn.tail
    env := s.env.tail }

end Sys2Proof.Machine
end

