-- ==== Sys2Proof/Machine/Flags.lean ====
section
/-! DEFINITION. The status outputs, the codes and the output ports (rules R22, R24, R27 to R30, R35, R70, R77, R144).

The block has no arithmetic flags; these are its only condition indicators. Every output is a function of the
registers and of `MAP`, and of no input (R35). -/

namespace Sys2Proof.Machine

open Sys2Proof

/-- The 2-bit code of a phase (R24). -/
def Phase.code : Phase → BitVec 2
  | .idle => 0
  | .addr => 1
  | .wait => 2
  | .writ => 3

/-- The 2-bit code of a response status (R29, R155). -/
def Status.code : Status → BitVec 2
  | .ok => 0
  | .boundsError => 1
  | .configError => 2
  | .illegalCommand => 3

/-- `BUSY = 1` exactly when `PH != IDLE` (R27). -/
def State.busy (s : State) : Bool := s.ph != .idle

/-- `CMD_READY = 1` exactly when `PH = IDLE` (R30). -/
def State.cmdReady (s : State) : Bool := s.ph == .idle

/-- `CFG_ERR = NOT Valid(MAP)` (R28, R118). -/
def State.cfgErr (s : State) : Bool := !validMap s.params.map

/-- The packed view of a board, `{BRD[7], ..., BRD[0]}` (R22). -/
def packBoard (b : Board) : BitVec 64 :=
  (b[7] ++ b[6] ++ b[5] ++ b[4] ++ b[3] ++ b[2] ++ b[1] ++ b[0] : BitVec (8 + 8 + 8 + 8 + 8 + 8 + 8 + 8))

/-- The output port `BOARD[63:0]`, driven continuously, in every phase (R22, R144). -/
def State.board (s : State) : BitVec 64 := packBoard s.brd

/-- The response word `{RSP_STATUS[1:0], RSP_DATA[7:0]}` (R70, R77). -/
def State.responseWord (s : State) : BitVec 10 := s.rspStatus.code ++ s.rspData

/-- All output ports of the block (R35). -/
structure Outputs where
  cmdReady : Bool
  rspValid : Bool
  rspStatus : BitVec 2
  rspData : BitVec 8
  sel : BitVec 4
  busy : Bool
  cfgErr : Bool
  board : BitVec 64
  deriving DecidableEq, Repr

/-- The output ports in a state (R35): register outputs, and functions of the registers and `MAP`. -/
def State.outputs (s : State) : Outputs where
  cmdReady := s.cmdReady
  rspValid := s.rspValid
  rspStatus := s.rspStatus.code
  rspData := s.rspData
  sel := s.sel
  busy := s.busy
  cfgErr := s.cfgErr
  board := s.board

end Sys2Proof.Machine
end

