-- ==== Sys2Proof/Machine/Sequencer.lean ====
section
/-! DEFINITION. The sequencer: the three edges of a scan step and the idle edge (rules R93, R126, R130, R190).

One scan step is `ADDR`, then `WAIT` until `AGE = SETTLE_CYCLES` and the sample, then `WRIT` (R190, R191). -/

namespace Sys2Proof.Machine

open Sys2Proof

/-- What one clock edge gives. -/
abbrev Result := Host.Outcome State Fault Refusal

/-- The `ADDR` edge (R190; R126 actions 1 and 2): `uSETA(GRAY(I)); PH <- WAIT`. -/
def addrEdge (s : State) : State := setPhase (uSetA (edgeDefaults s) (gray s.i)) .wait

/-- A `WAIT` edge (R190; R126 actions 3 and 4): if `AGE` reads `SETTLE_CYCLES`, sample and `PH <- WRIT`; otherwise
nothing but the count of `AGE`. -/
def waitEdge (s : State) : State :=
  if s.settled then setPhase (uRdo (edgeDefaults s) s.senseRead) .writ else edgeDefaults s

/-- Micro-operation `uNEXT` (R93): after step 15 the scan ends, `I` wraps to 0 and the one response of `SCAN` is
given; otherwise the next step begins. -/
def uNext (d : State) : State :=
  if d.i = 15 then respond (setPhase (setIndex d 0) .idle) .ok 0 else setPhase (setIndex d (d.i + 1)) .addr

/-- The `WRIT` edge (R190; R126 action 5): `uWRITE(I)`, then `uNEXT`. A ROM element above 7 faults (R130, D36). -/
def writEdge (s : State) : Result :=
  match writeLines (romRead s.params.map s.i) s.smp lines s.brd with
  | some b => .next (uNext (setBoard (edgeDefaults s) b))
  | none => .fault (.romElementAboveSeven s.i)

/-- An edge with `RST = 0` at which no command is accepted (R190): the scan in progress advances, and in `IDLE`
nothing happens but the defaults. The command inputs are ignored (R30). -/
def sequencerEdge (s : State) : Result :=
  match s.ph with
  | .idle => .next (edgeDefaults s)
  | .addr => .next (addrEdge s)
  | .wait => .next (waitEdge s)
  | .writ => writEdge s

/-- An edge with `RST = 0` at which the host offers a command whose body is `body` (R30, R73, R161). In `IDLE` it is
accepted: under `CFG_ERR` it is answered `CONFIG_ERROR` whatever it is, and otherwise `body` runs on the registers
after the edge's defaults. While a scan runs the offer waits: the edge is the scan's own, and the command inputs are
ignored. -/
def acceptCommand (s : State) (body : State → State) : Result :=
  match s.ph with
  | .idle => if s.cfgErr then .next (raiseError (edgeDefaults s) .configError) else .next (body (edgeDefaults s))
  | .addr | .wait | .writ => sequencerEdge s

/-- An edge at which the host offers a word with no command (R75, R158): accepted like any other and answered
`ILLEGAL_COMMAND`, or `CONFIG_ERROR` under `CFG_ERR`. -/
def illegalCommandEdge (s : State) : Result := acceptCommand s fun d => raiseError d .illegalCommand

end Sys2Proof.Machine
end

