-- ==== Sys2Proof/Machine/Board.lean ====
section
/-! DEFINITION. The board query commands `GETSQ` and `GETROW` (sub-block BRD, file 44). -/

namespace Sys2Proof.Machine

open Sys2Proof

/-- `GETSQ x, y` (R141): a coordinate outside 0..7 answers `BOUNDS_ERROR`; otherwise the stored bit of cell
`(7 - y, x)`, with no inversion. Only the response registers are written. -/
def execGetsq (x y : Nat) (s : State) : Result :=
  acceptCommand s fun d =>
    match boardOperand? x, boardOperand? y with
    | some cx, some cy =>
      respond d .ok (bitByte (cellRead s.brd (storageCell cx cy).1 (storageCell cx cy).2))
    | _, _ => raiseError d .boundsError

/-- `GETROW r` (R143): `r > 7` answers `BOUNDS_ERROR`; otherwise storage row `r` whole, with no flip. Only the
response registers are written. -/
def execGetrow (r : Nat) (s : State) : Result :=
  acceptCommand s fun d =>
    match boardOperand? r with
    | some row => respond d .ok s.brd[row]
    | none => raiseError d .boundsError

end Sys2Proof.Machine
end

