-- ==== Sys2Proof/Machine/Mux.lean ====
section
/-! DEFINITION. The diagnostic commands `SETA` and `RDO` (sub-block MXS, file 41). -/

namespace Sys2Proof.Machine

open Sys2Proof

/-- `SETA a` (R101): `a > 15` answers `BOUNDS_ERROR` with `SEL` unchanged and `AGE` only counting; otherwise
`uSETA(a)` and the response `(0, 0)`. -/
def execSeta (a : Nat) (s : State) : Result :=
  acceptCommand s fun d =>
    match addrOperand? a with
    | some addr => respond (uSetA d addr) .ok 0
    | none => raiseError d .boundsError

/-- `RDO` (R104): the four lines are sampled into `SMP` and the same four bits are the response, zero-extended. An
unsettled sample is a free value and no error (R105, R160). -/
def execRdo (s : State) : Result :=
  acceptCommand s fun d => respond (uRdo d s.senseRead) .ok (s.senseRead.zeroExtend 8)

end Sys2Proof.Machine
end

