-- ==== Sys2Proof/Machine/Scan.lean ====
section
/-! DEFINITION. The command `SCAN` (sub-block DEC, file 43). -/

namespace Sys2Proof.Machine

open Sys2Proof

/-- `SCAN` at its accepting edge (R125, R190): `I <- 0; PH <- ADDR`, no response yet. The sixteen steps that follow
are the edges of Machine/Sequencer.lean, and the response is given by the last of them. -/
def execScan (s : State) : Result := acceptCommand s fun d => setPhase (setIndex d 0) .addr

end Sys2Proof.Machine
end

