-- ==== Sys2Proof/Machine/Dispatch.lean ====
section
/-! DEFINITION. One clock edge with `RST = 0` at which the host offers the command `i`, by command. -/

namespace Sys2Proof.Machine

open Sys2Proof

/-- What a command does at the edge at which it is offered. -/
def exec (i : Instr) (s : State) : Host.Outcome State Fault Refusal :=
  match i with
  | .scan => Sys2Proof.Machine.execScan s
  | .getsq x y => Sys2Proof.Machine.execGetsq x y s
  | .getrow r => Sys2Proof.Machine.execGetrow r s
  | .seta a => Sys2Proof.Machine.execSeta a s
  | .rdo => Sys2Proof.Machine.execRdo s

end Sys2Proof.Machine
end

