-- ==== Sys2Proof/Machine/Edge.lean ====
section
/-! DEFINITION. One rising edge of `CLK`: reset, the acceptance of a command, or the sequencer's own edge
(rules R30, R35, R73, R161, R180, R190).

The block fetches nothing from a memory (R53): a command comes on `CMD` from the host, at an edge with `RST = 0`,
`CMD_VALID = 1` and `CMD_READY = 1` (R30). -/

namespace Sys2Proof.Machine

open Sys2Proof

/-- An edge at which the word `w` is offered in `IDLE` (R73): the command it decodes to, or the answer for an illegal
opcode. -/
def acceptWord (w : CommandWord) (s : State) : Result :=
  match decode w with
  | .ok i => exec i s
  | .error _ => illegalCommandEdge s

/-- The next rising edge of `CLK` (R190). Reset outranks everything (R161, R180). -/
def clockEdge (s : State) : Result :=
  let h := s.hostAt 0
  if h.rst then .next (resetEdge s)
  else if s.cmdReady && h.cmdValid then acceptWord h.cmd s
  else sequencerEdge s

/-- `s` with the host offering the word `w` at the next edge, and with the sequencer in `IDLE`, the one phase in which
the block takes a command (R30). -/
def offerNext (s : State) (w : CommandWord) : State :=
  { s with ph := .idle, hostIn := HostEdge.offer w :: s.hostIn.tail }

end Sys2Proof.Machine
end

