-- ==== Sys2Proof/Machine/Step.lean ====
section
/-! DEFINITION. One step of the machine is one rising edge of `CLK` (rules R10, R190). -/

namespace Sys2Proof.Machine

open Sys2Proof

/-- One clock edge. -/
def step (s : State) : Host.Outcome State Fault Refusal := clockEdge s

/-- `s` with the instruction of `nbits` bits and value `w` (numbered as spec/opcode_table.json numbers them) offered
by the host at the next edge, in `IDLE`, so that the next step accepts it (notes/assumptions/4.md). -/
def State.withFetchWord (s : State) (nbits w : Nat) : State := offerNext s (tableCommand nbits w)

end Sys2Proof.Machine
end

