-- ==== Sys2Proof/Machine/Listing.lean ====
section
/-! DEFINITION. The listing syntax, its assembler, and how a program is offered (rules R16, R86, R87).

None of this is hardware: it is the spec's textual form of a command sequence and the host that plays it. A program
becomes a schedule of `HostEdge`s, each command offered at the first edge at which it can be accepted. -/

namespace Sys2Proof.Machine

open Sys2Proof

/-- One line of a listing (R86, R87). -/
inductive ListingLine where
  /-- A command. -/
  | command (i : Instr)
  /-- `.word 0x<17 digits>`, a command word as a literal; the only way to write an illegal one (R86). -/
  | word (w : CommandWord)
  /-- `.wait n`: `n` edges pass with `CMD_VALID = 0` (R87). -/
  | wait (n : Nat)
  /-- `.wait SETTLE_CYCLES`, the shortest sufficient wait between `SETA` and `RDO` (R87). -/
  | waitSettle
  deriving DecidableEq, Repr

/-! ### From words to host edges -/

/-- The quiet edges from the acceptance of `w` to the edge of its response (R193): none, but for a `SCAN` that starts,
whose last `WRIT` edge is `16 * (SETTLE_CYCLES + 3)` edges after its accepting edge. -/
def busyEdges (p : Params) (w : CommandWord) : Nat :=
  if w.op = 0x1 ∧ validMap p.map = true then 16 * (p.settleCycles + 3) else 0

/-- A word offered in `IDLE`, and the quiet edges until its response (R16). -/
def offerAndWait (p : Params) (w : CommandWord) : List HostEdge :=
  HostEdge.offer w :: List.replicate (busyEdges p w) HostEdge.quiet

/-- The host edges of one line; `none` where the assembler rejects it: an operand above 4294967295 (R86). -/
def assembleLine (p : Params) : ListingLine → Option (List HostEdge)
  | .command i => if i.wellFormed then some (offerAndWait p (encode i)) else none
  | .word w => some (offerAndWait p w)
  | .wait n => some (List.replicate n HostEdge.quiet)
  | .waitSettle => some (List.replicate p.settleCycles HostEdge.quiet)

/-- The host edges of a program, each command offered after the response to the one before (R16). -/
def assemble (p : Params) : List ListingLine → Option (List HostEdge)
  | [] => some []
  | l :: ls =>
    match assembleLine p l, assemble p ls with
    | some es, some rest => some (es ++ rest)
    | _, _ => none

/-! ### From text to lines -/

/-- The value of a digit in a base of at most 16 (R86). DESIGN CHOICE (notes/assumptions/16.md): R86 says "hexadecimal"
and not in which letters; here both `A` to `F` and `a` to `f` are digits. -/
def digit? (base : Nat) (c : Char) : Option Nat :=
  let n := c.toNat
  let v := if 48 ≤ n ∧ n ≤ 57 then some (n - 48)
    else if 65 ≤ n ∧ n ≤ 70 then some (n - 55)
    else if 97 ≤ n ∧ n ≤ 102 then some (n - 87)
    else none
  v.filter (fun d => decide (d < base))

/-- The number a digit string writes, most significant digit first. -/
def digits? (base : Nat) : List Char → Nat → Option Nat
  | [], acc => some acc
  | c :: cs, acc =>
    match digit? base c with
    | some d => digits? base cs (base * acc + d)
    | none => none

/-- An unsigned integer, decimal or `0x` hexadecimal (R86). DESIGN CHOICE (notes/assumptions/16.md): zeros may lead. -/
def number? : List Char → Option Nat
  | [] => none
  | '0' :: 'x' :: [] => none
  | '0' :: 'x' :: cs => digits? 16 cs 0
  | cs => digits? 10 cs 0

/-- `0x` and exactly seventeen hexadecimal digits (R86). -/
def wordLiteral? : List Char → Option CommandWord
  | '0' :: 'x' :: cs => if cs.length = 17 then (digits? 16 cs 0).map (BitVec.ofNat 68) else none
  | _ => none

/-- The line up to its comment, which starts with `;` (R86). -/
def stripComment (cs : List Char) : List Char := cs.takeWhile (fun c => c != ';')

/-- Close the token being read, if there is one. -/
def closeToken (cur : List Char) (rest : List (List Char)) : List (List Char) :=
  if cur.isEmpty then rest else cur.reverse :: rest

/-- The tokens of a line: runs of characters parted by blanks, a comma a token of its own. DESIGN CHOICE
(notes/assumptions/16.md): R86 gives no rule for blanks. -/
def tokens : List Char → List Char → List (List Char)
  | [], cur => closeToken cur []
  | ' ' :: cs, cur => closeToken cur (tokens cs [])
  | ',' :: cs, cur => closeToken cur ([','] :: tokens cs [])
  | c :: cs, cur => tokens cs (c :: cur)

/-- The line a token list writes; `none` where the assembler rejects it. A number that names an operand may still
be too wide for it: `assembleLine` rejects that. DESIGN CHOICE (notes/assumptions/16.md): mnemonics and directives are
read in the letters R86 and R87 write them in, and the `n` of `.wait n` is a number as an operand is. -/
def lineOfTokens : List (List Char) → Option ListingLine
  | [['S', 'C', 'A', 'N']] => some (.command .scan)
  | [['R', 'D', 'O']] => some (.command .rdo)
  | [['G', 'E', 'T', 'R', 'O', 'W'], r] => (number? r).map fun v => .command (.getrow v)
  | [['S', 'E', 'T', 'A'], a] => (number? a).map fun v => .command (.seta v)
  | [['.', 'w', 'o', 'r', 'd'], w] => (wordLiteral? w).map .word
  | [['.', 'w', 'a', 'i', 't'], n] =>
    if n = ['S', 'E', 'T', 'T', 'L', 'E', '_', 'C', 'Y', 'C', 'L', 'E', 'S'] then some .waitSettle
    else (number? n).map .wait
  | [['G', 'E', 'T', 'S', 'Q'], x, [','], y] =>
    match number? x, number? y with
    | some vx, some vy => some (.command (.getsq vx vy))
    | _, _ => none
  | _ => none

/-- One line of text: no line for a blank or a comment, one line otherwise, `none` where the assembler rejects it. That a
blank line is taken is a DESIGN CHOICE (notes/assumptions/16.md). -/
def parseLine (cs : List Char) : Option (List ListingLine) :=
  match tokens (stripComment cs) [] with
  | [] => some []
  | ts => (lineOfTokens ts).map fun l => [l]

/-- The text of a command (R86). -/
def instrText : Instr → String
  | .scan => "SCAN"
  | .getsq x y => "GETSQ " ++ toString x ++ ", " ++ toString y
  | .getrow r => "GETROW " ++ toString r
  | .seta a => "SETA " ++ toString a
  | .rdo => "RDO"

end Sys2Proof.Machine
end

