-- ==== Sys2Proof/Safety.lean ====
section
/-! DEFINITION. What counts as a safe run, in the terms the statements use: runs of clock edges, what a host must not
do, the invariant of the registers, and what "nothing else changed" means. -/

namespace Sys2Proof.Machine

open Sys2Proof

/-! ### Runs -/

/-- `n` clock edges, stopping at the first fault or refusal. -/
def runEdges : Nat → State → Result
  | 0, s => .next s
  | n + 1, s =>
    match step s with
    | .next t => runEdges n t
    | .fault f => .fault f
    | .refused r => .refused r

/-- The responses given over `n` clock edges, in order (R16, R29): one for each cycle in which `RSP_VALID = 1`. -/
def responsesOver : Nat → State → List (Status × BitVec 8)
  | 0, _ => []
  | n + 1, s =>
    match step s with
    | .next t => (if t.rspValid then [(t.rspStatus, t.rspData)] else []) ++ responsesOver n t
    | .fault _ => []
    | .refused _ => []

/-- The host applies no reset at the next `n` edges. -/
def State.NoResetFor (s : State) (n : Nat) : Prop := ∀ k, k < n → (s.hostAt k).rst = false

/-- The host applies no reset and offers no command at the next `n` edges. -/
def State.QuietFor (s : State) (n : Nat) : Prop :=
  ∀ k, k < n → (s.hostAt k).rst = false ∧ (s.hostAt k).cmdValid = false

/-- The environment is the static stub `stub` at the next `n` edges (R13). -/
def State.StaticFor (s : State) (stub : Stub) (n : Nat) : Prop :=
  ∀ k, k < n → ∀ a, s.envAt k a = stub[index16 a]

/-- The host offers the word `w` at the next edge, `RST = 0`. -/
def State.Offers (s : State) (w : CommandWord) : Prop :=
  (s.hostAt 0).rst = false ∧ (s.hostAt 0).cmdValid = true ∧ (s.hostAt 0).cmd = w

/-- The block accepts the word `w` at the next edge (R30): `RST = 0`, `CMD_VALID = 1` and `CMD_READY = 1`. -/
def State.Accepts (s : State) (w : CommandWord) : Prop := s.ph = .idle ∧ s.Offers w

/-- The next edge accepts a `SCAN` that starts: the opcode is `0x1` and the table is valid (R125). -/
def State.StartsScan (s : State) : Prop := ∃ w, s.Accepts w ∧ w.op = 0x1 ∧ s.cfgErr = false

/-- The next edge accepts a `SETA a` that writes `SEL` (R101). -/
def State.SetsAddress (s : State) (a : Nat) : Prop :=
  ∃ w, s.Accepts w ∧ w.op = 0x4 ∧ s.cfgErr = false ∧ w.x.toNat = a ∧ a ≤ 15

/-- The next edge accepts an `RDO` that samples (R104). -/
def State.Samples (s : State) : Prop := ∃ w, s.Accepts w ∧ w.op = 0x5 ∧ s.cfgErr = false

/-- The number of clock edges of one scan step (R191). -/
def stepEdges (p : Params) : Nat := p.settleCycles + 3

/-- The number of clock edges from the acceptance of a `SCAN` to its response, both included (R193). -/
def scanEdges (p : Params) : Nat := 1 + 16 * stepEdges p

/-- The sampling edge of scan step `i`, counted from the edge that accepts the `SCAN`, which is 0 (R193). -/
def sampleEdge (p : Params) (i : Addr) : Nat := 1 + i.toNat * stepEdges p + p.settleCycles + 1

/-! ### Duties of the host and of the instantiator -/

/-- The settling contract (R107, D19): `SETTLE_CYCLES * T_CLK >= t_settle`, with `T_CLK` a positive real (D1). A PREMISE
of any claim that the board matches the physical position (R185, U2); nothing in the machine reads `T_CLK`. DESIGN CHOICE
(notes/assumptions/11.md): the spec gives `t_settle` no type; here it is a real, in the unit of `T_CLK`, of any sign. -/
def SettlingContract (p : Params) (tClk tSettle : ℝ) : Prop := 0 < tClk ∧ tSettle ≤ p.settleCycles * tClk

/-- The discipline against H-TEAR (R186): the `BOARD` port is consistent in a cycle in which `BUSY = 0`. -/
def State.boardConsistent (s : State) : Bool := !s.busy

/-! ### The invariant -/

/-- What the registers satisfy at reset and after every step, whatever the host and the environment do. -/
structure State.Inv (s : State) : Prop where
  /-- A built instance settles for at least one cycle (R7). -/
  settlePos : 1 ≤ s.params.settleCycles
  /-- `AGE` holds values 0..`SETTLE_CYCLES` (R31). -/
  ageBound : s.age ≤ s.params.settleCycles
  /-- `I` is 0 whenever `PH = IDLE` (R23). -/
  idleIndex : s.ph = .idle → s.i = 0
  /-- A scan runs only on a valid table (R157). -/
  scanValid : s.ph ≠ .idle → s.cfgErr = false
  /-- Before the `ADDR` edge of a later step the select lines hold the address of the step before (R126). -/
  addrSel : s.ph = .addr → s.i ≠ 0 → s.sel = gray (s.i - 1)
  /-- From the `ADDR` edge of step `I` on the select lines hold `GRAY(I)` (R126). -/
  stepSel : s.ph = .wait ∨ s.ph = .writ → s.sel = gray s.i
  /-- Every sample of a scan is settled (R127). -/
  writSettled : s.ph = .writ → s.age = s.params.settleCycles
  /-- `RSP_DATA = 0` beside every status but `OK` (R77). -/
  errorData : s.rspStatus ≠ .ok → s.rspData = 0
  /-- A response is given only as the sequencer is or comes to be in `IDLE` (R125, R162). -/
  validIdle : s.rspValid = true → s.ph = .idle
  /-- On an invalid table no scan ever starts: the board, `SEL` and `SMP` stay zero (R157). -/
  cfgErrFrozen : s.cfgErr = true → s.brd = Vector.replicate 8 0 ∧ s.sel = 0 ∧ s.smp = 0

/-! ### Frames -/

/-- One clock edge lies between `s` and `t`, and the instance is the same (R32, R181): the model's own fields. -/
structure OneEdgeLater (s t : State) : Prop where
  params : t.params = s.params
  edge : t.edge = s.edge + 1
  hostIn : t.hostIn = s.hostIn.tail
  env : t.env = s.env.tail

/-- Nothing but the response registers differs, and `AGE` made its ordinary count (R156). -/
structure OnlyResponseChanged (s t : State) : Prop extends OneEdgeLater s t where
  brd : t.brd = s.brd
  i : t.i = s.i
  ph : t.ph = s.ph
  sel : t.sel = s.sel
  smp : t.smp = s.smp
  age : t.age = ageCount s.params s.age

/-- The response registers hold the response `(status, data)`, just given (R12). -/
structure Answered (t : State) (status : Status) (data : BitVec 8) : Prop where
  valid : t.rspValid = true
  status : t.rspStatus = status
  data : t.rspData = data

/-- No response was given at the edge from `s` to `t` (R29): `RSP_VALID = 0`, the rest held. -/
structure NoResponse (s t : State) : Prop where
  valid : t.rspValid = false
  status : t.rspStatus = s.rspStatus
  data : t.rspData = s.rspData

/-- All registers hold their reset values (R180). -/
structure InResetState (t : State) : Prop where
  brd : ∀ r c : Coord, t.cell r c = false
  i : t.i = 0
  ph : t.ph = .idle
  sel : t.sel = 0
  smp : t.smp = 0
  age : t.age = 0
  rspValid : t.rspValid = false
  rspStatus : t.rspStatus = .ok
  rspData : t.rspData = 0

end Sys2Proof.Machine
end

