-- ==== Sys2Proof/Certificates/Slice0/Obligations.lean ====
section
/-! DEFINITION. The statements about the model, for the provers. Each says in its docstring which rule or section of
spec/ it formalises. None rests on a value the model chose, but for one clause each of `ResetStateHoldsResetValues` and
`ResetMeetsTheInvariant`, which is about `State.reset`'s own instance (notes/assumptions/1.md).

`OneEdgeLater`, `OnlyResponseChanged`, `Answered`, `NoResponse` and `InResetState` are the frames of Safety.lean. -/

open Sys2Proof Sys2Proof.Machine

/-! ### Encoding (file 30) -/

/-- File 30, sections 2 and 8: a command written as a word is read back with every operand bit. -/
def Obligations.DecodeOfEncodeIsTheCommand : Prop :=
  ∀ i : Instr, i.wellFormed = true → decode (encode i) = .ok i

/-- File 30, sections 2 and 4 (R73, R76): two words read as the same command exactly when they agree in the opcode and in the
operand fields that command uses; what the ignored fields hold changes nothing, in the reading or in the step; and the
encoder writes them as zero (R86). The two steps of the second clause have one edge number, so where the word is an `RDO`
that samples unsettled they draw one value: that equality rests on the model's own choice of a form for the draw (DESIGN
CHOICE, notes/assumptions/2.md), while R105 has each such sample drawn anew. -/
def Obligations.OnlyOpcodeAndUsedFieldsMatter : Prop :=
  (∀ w w' : CommandWord,
    (∃ i, decode w = .ok i ∧ decode w' = .ok i) ↔
      (w'.op = w.op ∧ (w.op = 0x1 ∨ w.op = 0x5 ∨ (w.op = 0x2 ∧ w'.x = w.x ∧ w'.y = w.y) ∨
        ((w.op = 0x3 ∨ w.op = 0x4) ∧ w'.x = w.x)))) ∧
  (∀ (s : State) (h : HostEdge) (w' : CommandWord) (rest : List HostEdge),
    (∃ i, decode h.cmd = .ok i ∧ decode w' = .ok i) →
      step { s with hostIn := { h with cmd := w' } :: rest } = step { s with hostIn := h :: rest }) ∧
  ((encode .scan).y = 0 ∧ (encode .scan).x = 0 ∧ (encode .rdo).y = 0 ∧ (encode .rdo).x = 0 ∧
    (∀ r : Nat, (encode (.getrow r)).y = 0) ∧ (∀ a : Nat, (encode (.seta a)).y = 0))

/-- R74, the opcode map, complete: what each of the `2^68` words is read as. -/
def Obligations.OpcodeMapIsComplete : Prop :=
  ∀ w : CommandWord,
    (w.op = 0x1 → decode w = .ok .scan) ∧
    (w.op = 0x2 → decode w = .ok (.getsq w.x.toNat w.y.toNat)) ∧
    (w.op = 0x3 → decode w = .ok (.getrow w.x.toNat)) ∧
    (w.op = 0x4 → decode w = .ok (.seta w.x.toNat)) ∧
    (w.op = 0x5 → decode w = .ok .rdo) ∧
    ((w.op = 0x0 ∨ 0x6 ≤ w.op) → decode w = .error (.illegalOpcode w.op)) ∧
    (∀ i, decode w = .ok i → i.wellFormed = true ∧ i.opcode = w.op)

/-- 95_test_vectors.md V5, V20, V21, V30, V31: words of the spec and the commands they stand for. -/
def Obligations.SpecWordsDecodeAsListed : Prop :=
  decode 0x10000000000000000 = .ok .scan ∧ decode 0x19ABCDEF012345678 = .ok .scan ∧
  decode 0x20000000200000004 = .ok (.getsq 4 2) ∧ decode 0x3DEADBEEF00000001 = .ok (.getrow 1) ∧
  decode 0x400000000FFFFFFFF = .ok (.seta 0xFFFFFFFF) ∧ decode 0x5FFFFFFFFFFFFFFFF = .ok .rdo ∧
  decode 0x00000000000000000 = .error (.illegalOpcode 0x0) ∧
  decode 0x60000000300000003 = .error (.illegalOpcode 0x6)

/-! ### The step and the command channel (files 10, 60, 70) -/

/-- R30, R190: the edge that accepts a word which decodes to `i` is `exec i`, with nothing around it; the edge's
defaults (one edge later, the schedules advanced) are part of `exec`. -/
def Obligations.StepRunsTheDecodedCommand : Prop :=
  ∀ (s : State) (w : CommandWord) (i : Instr), s.Accepts w → decode w = .ok i → step s = exec i s

/-- R30, file 60 R160 (c), file 70 R188 (a): while a scan runs the command inputs are ignored; an offered command has
no effect of its own, and the edge is what it would be with the host quiet. The first clause, on `exec` outside `IDLE`, is
the model's own choice (DESIGN CHOICE, notes/assumptions/6.md): the spec gives a command's rule at its accepting edge
only. The second clause, on `step`, is the spec's. -/
def Obligations.CommandsWaitWhileAScanRuns : Prop :=
  ∀ s : State, s.ph ≠ .idle →
    (∀ i : Instr, exec i s = step { s with hostIn := HostEdge.quiet :: s.hostIn.tail }) ∧
    (∀ h : HostEdge, h.rst = false →
      step { s with hostIn := h :: s.hostIn.tail } = step { s with hostIn := HostEdge.quiet :: s.hostIn.tail })

/-- R75 and R158: an illegal word is accepted like any other, changes only the response registers, and is answered
`ILLEGAL_COMMAND`, or `CONFIG_ERROR` under `CFG_ERR`; the all-zero word is illegal. -/
def Obligations.IllegalWordsAreAnswered : Prop :=
  (∀ (s : State) (w : CommandWord), s.Accepts w → (w.op = 0x0 ∨ 0x6 ≤ w.op) →
    ∃ t, step s = .next t ∧
      Answered t (if s.cfgErr then .configError else .illegalCommand) 0 ∧ OnlyResponseChanged s t) ∧
  (0 : CommandWord).op = 0x0

/-- R157: under `CFG_ERR` every accepted word, whatever its opcode or operands, is answered `CONFIG_ERROR` and has no
other effect; no step, reset included, clears `CFG_ERR` or raises it; and from reset on no scan starts, the board,
`SEL` and `SMP` stay zero. -/
def Obligations.InvalidTableRefusesEverything : Prop :=
  (∀ (s : State) (w : CommandWord), s.Accepts w → s.cfgErr = true →
    ∃ t, step s = .next t ∧ Answered t .configError 0 ∧ OnlyResponseChanged s t) ∧
  (∀ (i : Instr) (s : State), s.ph = .idle → s.cfgErr = true →
    ∃ t, exec i s = .next t ∧ Answered t .configError 0 ∧ OnlyResponseChanged s t) ∧
  (∀ s t : State, step s = .next t → t.cfgErr = s.cfgErr) ∧
  (∀ (p : Params) (host : List HostEdge) (env : List Stub) (n : Nat) (t : State), validMap p.map = false →
    runEdges n { State.resetOf p with hostIn := host, env := env } = .next t →
    t.ph = .idle ∧ t.brd = Vector.replicate 8 0 ∧ t.sel = 0 ∧ t.smp = 0)

/-- R159, the causes of `BOUNDS_ERROR`, all of them, each on the whole operand, and its effect. -/
def Obligations.BoundsErrorCauses : Prop :=
  (∀ (s : State) (x y : Nat), s.ph = .idle → s.cfgErr = false → (7 < x ∨ 7 < y) →
    ∃ t, exec (.getsq x y) s = .next t ∧ Answered t .boundsError 0 ∧ OnlyResponseChanged s t) ∧
  (∀ (s : State) (r : Nat), s.ph = .idle → s.cfgErr = false → 7 < r →
    ∃ t, exec (.getrow r) s = .next t ∧ Answered t .boundsError 0 ∧ OnlyResponseChanged s t) ∧
  (∀ (s : State) (a : Nat), s.ph = .idle → s.cfgErr = false → 15 < a →
    ∃ t, exec (.seta a) s = .next t ∧ Answered t .boundsError 0 ∧ OnlyResponseChanged s t) ∧
  (∀ s t : State, step s = .next t → t.rspValid = true → t.rspStatus = .boundsError →
    ∃ w, s.Accepts w ∧ s.cfgErr = false ∧
      ((w.op = 0x2 ∧ (7 < w.x.toNat ∨ 7 < w.y.toNat)) ∨ (w.op = 0x3 ∧ 7 < w.x.toNat) ∨
        (w.op = 0x4 ∧ 15 < w.x.toNat)))

/-- R161: the one code an accepted word reports, `CONFIG_ERROR` over `ILLEGAL_COMMAND` over `BOUNDS_ERROR` over `OK`
(a `SCAN` that starts reports nothing yet); and reset outranks everything. -/
def Obligations.ErrorPriority : Prop :=
  (∀ (s t : State) (w : CommandWord), s.Accepts w → step s = .next t →
    if s.cfgErr = true then Answered t .configError 0
    else if w.op = 0x0 ∨ 0x6 ≤ w.op then Answered t .illegalCommand 0
    else if w.op = 0x2 ∧ (7 < w.x.toNat ∨ 7 < w.y.toNat) then Answered t .boundsError 0
    else if w.op = 0x3 ∧ 7 < w.x.toNat then Answered t .boundsError 0
    else if w.op = 0x4 ∧ 15 < w.x.toNat then Answered t .boundsError 0
    else if w.op = 0x1 then NoResponse s t
    else t.rspValid = true ∧ t.rspStatus = .ok) ∧
  (∀ s : State, (s.hostAt 0).rst = true → ∃ t, step s = .next t ∧ InResetState t)

/-- R156: every error is precise. Whatever the word, if its answer is no `OK` then nothing but the response registers
changed, the data byte is zero, and the sequencer is ready for the next command. -/
def Obligations.ErrorsArePrecise : Prop :=
  ∀ (s t : State) (w : CommandWord), s.Accepts w → step s = .next t → t.rspValid = true → t.rspStatus ≠ .ok →
    OnlyResponseChanged s t ∧ t.rspData = 0 ∧ t.cmdReady = true

/-- R163, file 60 section 1: an error leaves no trace but in the response registers. No edge reads them back: from two
states that differ only in them, an edge does the same, gives the same response if it gives one, and otherwise holds
each state's own. The two edges have one number, so an unsettled sample is one draw in both (notes/assumptions/2.md). -/
def Obligations.ResponseRegistersAreNeverReadBack : Prop :=
  ∀ (s : State) (v : Bool) (st : Status) (d : BitVec 8),
    (∀ t, step s = .next t →
      step { s with rspValid := v, rspStatus := st, rspData := d } =
        .next (if t.rspValid = true ∨ (s.hostAt 0).rst = true then t else { t with rspStatus := st, rspData := d })) ∧
    (∀ f, step s = .fault f → step { s with rspValid := v, rspStatus := st, rspData := d } = .fault f)

/-! ### The commands (files 41, 43, 44) -/

/-- File 44, sections 1 and 2: `GETSQ x, y` in bounds answers the stored bit of cell `(7 - y, x)`, which is bit
`8(7 - y) + x` of `BOARD`, with no inversion, and changes nothing else. -/
def Obligations.GetsqAnswersTheStoredCell : Prop :=
  ∀ (s : State) (x y : Coord), s.ph = .idle → s.cfgErr = false →
    ∃ t, exec (.getsq x.val y.val) s = .next t ∧
      Answered t .ok (if s.board.getLsbD (8 * (7 - y.val) + x.val) then 1 else 0) ∧
      s.cell (flip y) x = s.board.getLsbD (8 * (7 - y.val) + x.val) ∧
      OnlyResponseChanged s t

/-- File 44, section 3: `GETROW r` in bounds answers storage row `r`, column `c` at bit `c`, with no flip, and changes
nothing else. -/
def Obligations.GetrowAnswersTheStoredRow : Prop :=
  ∀ (s : State) (r : Coord), s.ph = .idle → s.cfgErr = false →
    ∃ t, exec (.getrow r.val) s = .next t ∧ Answered t .ok s.brd[r] ∧
      (∀ c : Coord, t.rspData.getLsbD c = s.cell r c) ∧ OnlyResponseChanged s t

/-- R55: a cell read by `GETSQ`, the same cell inside the byte of `GETROW` and the same cell on the `BOARD` port are
the same bit, whenever the three are read with the same board. -/
def Obligations.ViewsOfACellAgree : Prop :=
  ∀ (s u v : State) (x y : Coord), s.ph = .idle → s.cfgErr = false → u.ph = .idle → u.cfgErr = false →
    u.brd = s.brd → v.brd = s.brd →
    ∃ s' u', exec (.getsq x.val y.val) s = .next s' ∧ exec (.getrow (7 - y.val)) u = .next u' ∧
      s'.rspStatus = .ok ∧ u'.rspStatus = .ok ∧ s'.rspData = bitByte (u'.rspData.getLsbD x) ∧
      u'.rspData.getLsbD x = v.outputs.board.getLsbD (8 * (7 - y.val) + x.val)

/-- File 41, section 1: `SETA a` with `a` in 0..15 puts `a` on the select lines, restarts the settle count, answers
`(OK, 0)`, and changes nothing else: neither the board, nor `SMP`, nor `I`, nor `PH`. -/
def Obligations.SetaWritesTheSelectRegister : Prop :=
  ∀ (s : State) (a : Addr), s.ph = .idle → s.cfgErr = false →
    ∃ t, exec (.seta a.toNat) s = .next t ∧ t.sel = a ∧ t.age = 0 ∧ Answered t .ok 0 ∧
      t.brd = s.brd ∧ t.i = s.i ∧ t.ph = .idle ∧ t.smp = s.smp ∧ OneEdgeLater s t

/-- File 41, sections 2 and 3: `RDO` puts a sample in `SMP` and answers the same four bits, high bits zero; settled,
they are the true levels at address `SEL`; unsettled, the free value. It changes nothing else. That the unsettled sample
is the draw of the edge's number is the model's own choice of a form for R105's "any 4-bit value" (DESIGN CHOICE,
notes/assumptions/2.md): the clause says which draw it is and nothing of its value. -/
def Obligations.RdoAnswersTheSample : Prop :=
  ∀ s : State, s.ph = .idle → s.cfgErr = false →
    ∃ t, exec .rdo s = .next t ∧ Answered t .ok (t.smp.zeroExtend 8) ∧ t.rspData.toNat ≤ 0x0F ∧
      (s.age = s.params.settleCycles → t.smp = s.envAt 0 s.sel) ∧
      (s.age < s.params.settleCycles → t.smp = Config.freeSample t.edge) ∧
      t.brd = s.brd ∧ t.i = s.i ∧ t.ph = .idle ∧ t.sel = s.sel ∧ t.age = ageCount s.params s.age ∧ OneEdgeLater s t

/-- File 43, section 1, and R190: `SCAN` on a valid table sets `I <- 0; PH <- ADDR` at its accepting edge and gives no
response yet; `BUSY` rises, `CMD_READY` falls, and nothing else changes but the ordinary count of `AGE`. -/
def Obligations.ScanStartsTheSequencer : Prop :=
  ∀ s : State, s.ph = .idle → s.cfgErr = false →
    ∃ t, exec .scan s = .next t ∧ t.i = 0 ∧ t.ph = .addr ∧ t.busy = true ∧ t.cmdReady = false ∧ NoResponse s t ∧
      t.brd = s.brd ∧ t.sel = s.sel ∧ t.smp = s.smp ∧ t.age = ageCount s.params s.age ∧ OneEdgeLater s t

/-- File 41, section 3 (R106), and file 70, section 3 (R184): between `SETA a` and `RDO` the host lets `n` idle edges pass; with
`n >= SETTLE_CYCLES` the `RDO` answers the true levels at `a`, and with fewer its sample is the free value. That the free
value is the draw of the edge's number is the model's own choice (DESIGN CHOICE, notes/assumptions/2.md); R106 and R184
say only that the data is unspecified. -/
def Obligations.RdoIsSettledAfterEnoughIdleEdges : Prop :=
  ∀ (s t : State) (a : Addr) (n : Nat), s.ph = .idle → s.cfgErr = false → exec (.seta a.toNat) s = .next t →
    t.QuietFor n →
    ∃ u v, runEdges n t = .next u ∧ exec .rdo u = .next v ∧ Answered v .ok (v.smp.zeroExtend 8) ∧
      (s.params.settleCycles ≤ n → v.smp = t.envAt n a) ∧
      (n < s.params.settleCycles → v.smp = Config.freeSample v.edge)

/-! ### The sequencer, edge by edge (file 70, section 4) -/

/-- R190 (`PH = IDLE`, `CMD_VALID = 0`): nothing happens but the defaults; over `n` quiet edges `AGE` counts `n` up to
`SETTLE_CYCLES` and every other register but `RSP_VALID` is held (file 60, R168). -/
def Obligations.IdleEdgesOnlyCount : Prop :=
  ∀ (s : State) (n : Nat), s.ph = .idle → s.age ≤ s.params.settleCycles → s.QuietFor n →
    ∃ t, runEdges n s = .next t ∧ t.age = min (s.age + n) s.params.settleCycles ∧ t.ph = .idle ∧ t.brd = s.brd ∧
      t.i = s.i ∧ t.sel = s.sel ∧ t.smp = s.smp ∧ t.rspStatus = s.rspStatus ∧ t.rspData = s.rspData ∧
      (0 < n → t.rspValid = false) ∧ t.params = s.params ∧ t.edge = s.edge + n ∧ t.hostIn = s.hostIn.drop n ∧
      t.env = s.env.drop n

/-- R190 (`PH = ADDR`): `SEL <- GRAY(I); AGE <- 0; PH <- WAIT`, and nothing else. -/
def Obligations.AddrEdgeDrivesTheGrayAddress : Prop :=
  ∀ s : State, s.ph = .addr → (s.hostAt 0).rst = false →
    ∃ t, step s = .next t ∧ t.sel = s.i ^^^ (s.i >>> 1) ∧ t.age = 0 ∧ t.ph = .wait ∧ t.i = s.i ∧ t.brd = s.brd ∧
      t.smp = s.smp ∧ NoResponse s t ∧ OneEdgeLater s t

/-- R190 (`PH = WAIT`): with `AGE = SETTLE_CYCLES` the four lines are sampled and `PH <- WRIT`; otherwise nothing but
the count of `AGE`. -/
def Obligations.WaitEdgeCountsThenSamples : Prop :=
  ∀ s : State, s.ph = .wait → (s.hostAt 0).rst = false →
    ∃ t, step s = .next t ∧ t.i = s.i ∧ t.sel = s.sel ∧ t.brd = s.brd ∧ NoResponse s t ∧ OneEdgeLater s t ∧
      (if s.age = s.params.settleCycles
        then t.smp = s.envAt 0 s.sel ∧ t.ph = .writ ∧ t.age = s.age
        else t.smp = s.smp ∧ t.ph = .wait ∧
          t.age = if s.age < s.params.settleCycles then s.age + 1 else s.age)

/-- R93 and R190 (`PH = WRIT`), on a valid table: `I` advances modulo 16; after step 15 the sequencer is idle and the
one response of `SCAN` is given, after every other the next step begins. `SEL` and `SMP` are held. -/
def Obligations.WritEdgeAdvancesOrEnds : Prop :=
  ∀ s : State, s.ph = .writ → s.cfgErr = false → (s.hostAt 0).rst = false →
    ∃ t, step s = .next t ∧ t.i = s.i + 1 ∧ t.sel = s.sel ∧ t.smp = s.smp ∧ t.age = ageCount s.params s.age ∧
      OneEdgeLater s t ∧
      (if s.i = 15 then t.ph = .idle ∧ t.i = 0 ∧ t.busy = false ∧ Answered t .ok 0
        else t.ph = .addr ∧ t.busy = true ∧ NoResponse s t)

/-- File 43, section 3: on a valid table the `WRIT` edge of step `I` writes the inverted sample bit of each line to the
cell its pair names, outright, and the other sixty cells keep their values. -/
def Obligations.WritEdgeWritesFourDecodedCells : Prop :=
  ∀ s : State, s.ph = .writ → s.cfgErr = false → (s.hostAt 0).rst = false →
    ∃ t, step s = .next t ∧
      (∀ (j : Line) (r c : Coord), mapPair s.params.map s.i j = (BitVec.ofNat 4 r.val, BitVec.ofNat 4 c.val) →
        t.cell r c = !s.smp.getLsbD j) ∧
      (∀ r c : Coord, (∀ j : Line, mapPair s.params.map s.i j ≠ (BitVec.ofNat 4 r.val, BitVec.ofNat 4 c.val)) →
        t.cell r c = s.cell r c)

/-- R130, D36, U7: a step stops with a fault exactly at a `WRIT` edge whose ROM word holds an element above 7, and is
never refused. -/
def Obligations.OnlyAnElementAboveSevenFaults : Prop :=
  (∀ (s : State) (f : Fault), step s = .fault f ↔
    ((s.hostAt 0).rst = false ∧ s.ph = .writ ∧ f = .romElementAboveSeven s.i ∧
      ∃ j : Line, 7 < (mapPair s.params.map s.i j).1 ∨ 7 < (mapPair s.params.map s.i j).2)) ∧
  (∀ (s : State) (e : Refusal), step s ≠ .refused e)

/-- R94: the addresses of a scan change one select line per step, from the last step of a scan to the first of the next
too, and the line is the lowest set bit of `i + 1`; the first step after reset changes none, and after `SETA a` the first
step changes `popcount(a)`. -/
def Obligations.OneSelectLinePerStep : Prop :=
  (∀ i : Addr, i ≠ 15 →
    popcount4 (gray i ^^^ gray (i + 1)) = 1 ∧ gray i ^^^ gray (i + 1) = (i + 1) &&& -(i + 1)) ∧
  gray 15 ^^^ gray 0 = 0b1000 ∧
  (∀ s : State, s.Inv → s.ph = .addr → (s.hostAt 0).rst = false →
    ∃ t, step s = .next t ∧
      (s.i ≠ 0 → popcount4 (s.sel ^^^ t.sel) = 1) ∧
      (s.i = 0 → popcount4 (s.sel ^^^ t.sel) = popcount4 s.sel) ∧
      (s.i = 0 → s.sel = 8 → popcount4 (s.sel ^^^ t.sel) = 1))

/-! ### What only certain edges change (file 10) -/

/-- R144 and R21. In every phase bit `8r + c` of the `BOARD` port is bit `c` of `BRD[r]`, with no flip and no inversion.
A reset edge clears all eight row registers, and so does the reset state; outside `WRIT` a step with `RST = 0` holds them
all; a `WRIT` edge holds every cell that no line of step `I` names, and changes at most four bits; no command writes them
at its own edge. Nothing but `GETSQ`, `GETROW` and the port reads them: a step that accepts neither does the same, the
board apart, whatever the board holds, so that with `BUSY = 1` the port is the one path by which it shows. (The hypothesis
on `Samples` is met by every step that accepts no `RDO`, so by every step with `BUSY = 1`; what an unsettled `RDO` does is
`RdoAnswersTheSample`, where the board is not read either. It keeps the free value out of this clause.) -/
def Obligations.BoardChangesOnlyAtWritOrReset : Prop :=
  (∀ (s : State) (r c : Coord), s.outputs.board.getLsbD (8 * r.val + c.val) = s.brd[r].getLsbD c) ∧
  (∀ s t : State, step s = .next t → (s.hostAt 0).rst = true → t.outputs.board = 0 ∧ ∀ r : Coord, t.brd[r] = 0x00) ∧
  (∀ (p : Params) (r : Coord), (State.resetOf p).brd[r] = 0x00) ∧
  (∀ s t : State, step s = .next t → (s.hostAt 0).rst = false → s.ph ≠ .writ →
    t.brd = s.brd ∧ t.outputs.board = s.outputs.board) ∧
  (∀ s t : State, step s = .next t → (s.hostAt 0).rst = false → s.ph = .writ →
    (∀ r c : Coord, (∀ j : Line, mapPair s.params.map s.i j ≠ (BitVec.ofNat 4 r.val, BitVec.ofNat 4 c.val)) →
      t.cell r c = s.cell r c) ∧
    (Finset.univ.filter fun rc : Coord × Coord => t.cell rc.1 rc.2 ≠ s.cell rc.1 rc.2).card ≤ 4) ∧
  (∀ (i : Instr) (s t : State), s.ph = .idle → exec i s = .next t → t.brd = s.brd) ∧
  (∀ (s t : State) (b : Board), step s = .next t → (∀ w, s.Accepts w → w.op ≠ 0x2 ∧ w.op ≠ 0x3) →
    (s.Samples → s.age = s.params.settleCycles) →
    ∃ b' : Board, step { s with brd := b } = .next { t with brd := b' })

/-- R25: `SEL` is written by a scan step's `ADDR` edge, by `SETA` and by reset, and by nothing else. -/
def Obligations.SelectRegisterWriters : Prop :=
  ∀ s t : State, step s = .next t → (s.hostAt 0).rst = false →
    (s.ph = .addr → t.sel = gray s.i) ∧
    (∀ a : Nat, s.SetsAddress a → t.sel = BitVec.ofNat 4 a) ∧
    (s.ph ≠ .addr → (∀ a, ¬ s.SetsAddress a) → t.sel = s.sel)

/-- R31: at every edge with `RST = 0`, `AGE <- 0` if the edge writes `SEL`, equal value or not; otherwise it counts and
saturates, never above `SETTLE_CYCLES`; reset clears it; and it is visible on no port. -/
def Obligations.AgeCountsSinceTheSelectWrite : Prop :=
  (∀ s t : State, step s = .next t → (s.hostAt 0).rst = false →
    ((s.ph = .addr ∨ ∃ a, s.SetsAddress a) → t.age = 0) ∧
    (¬ (s.ph = .addr ∨ ∃ a, s.SetsAddress a) →
      t.age = if s.age < s.params.settleCycles then s.age + 1 else s.age)) ∧
  (∀ s t : State, step s = .next t → (s.hostAt 0).rst = true → t.age = 0) ∧
  (∀ s t : State, step s = .next t → s.age ≤ s.params.settleCycles → t.age ≤ t.params.settleCycles) ∧
  (∀ (s : State) (n : Nat), ({ s with age := n } : State).outputs = s.outputs)

/-- R26, R127: `SMP` is written by the sampling edge of a scan step, which is settled, by `RDO` and by reset, and by
nothing else. What an `RDO` senses unsettled is the model's free value (DESIGN CHOICE, notes/assumptions/2.md). -/
def Obligations.SampleRegisterWriters : Prop :=
  ∀ s t : State, step s = .next t → (s.hostAt 0).rst = false →
    (s.ph = .wait → s.age = s.params.settleCycles → t.smp = s.envAt 0 s.sel) ∧
    (s.Samples → t.smp = s.senseRead) ∧
    (¬ (s.ph = .wait ∧ s.age = s.params.settleCycles) → ¬ s.Samples → t.smp = s.smp)

/-- R29: `RSP_VALID` is 1 exactly in the cycle after an edge that gives a response: the acceptance of a word that starts
no scan, or the last `WRIT` edge (R188); at every other edge it is 0, and the status and the data are held but for reset,
which clears all three, as they are in the reset state. The registers drive the ports of the same names, the status by
the codes 0 `OK`, 1 `BOUNDS_ERROR`, 2 `CONFIG_ERROR`, 3 `ILLEGAL_COMMAND`, which are also the two high bits of the
response word (R70, R77). -/
def Obligations.ResponseIsGivenExactlyWhenDue : Prop :=
  (∀ s t : State, step s = .next t → (s.hostAt 0).rst = false →
    (t.rspValid = true ↔ (((∃ w, s.Accepts w) ∧ ¬ s.StartsScan) ∨ (s.ph = .writ ∧ s.i = 15))) ∧
    (t.rspValid = true ∨ NoResponse s t)) ∧
  (∀ s t : State, step s = .next t → (s.hostAt 0).rst = true →
    t.rspValid = false ∧ t.outputs.rspStatus = 0 ∧ t.rspData = 0) ∧
  (∀ p : Params, (State.resetOf p).rspValid = false ∧ (State.resetOf p).outputs.rspStatus = 0 ∧
    (State.resetOf p).rspData = 0) ∧
  (∀ s : State, s.outputs.rspValid = s.rspValid ∧ s.outputs.rspData = s.rspData ∧
    (s.rspStatus = .ok → s.outputs.rspStatus = 0b00 ∧ s.responseWord = 0b00#2 ++ s.rspData) ∧
    (s.rspStatus = .boundsError → s.outputs.rspStatus = 0b01 ∧ s.responseWord = 0b01#2 ++ s.rspData) ∧
    (s.rspStatus = .configError → s.outputs.rspStatus = 0b10 ∧ s.responseWord = 0b10#2 ++ s.rspData) ∧
    (s.rspStatus = .illegalCommand → s.outputs.rspStatus = 0b11 ∧ s.responseWord = 0b11#2 ++ s.rspData))

/-- R27: `BUSY = 1` exactly when `PH != IDLE`; it rises exactly at the edge that accepts a `SCAN` that starts, falls
exactly at the edge that completes the sixteenth step (or at a reset edge), and is 0 after reset. R30: `CMD_READY` is 1
exactly when `PH = IDLE`. -/
def Obligations.BusyRisesAndFallsWithTheScan : Prop :=
  (∀ s : State, (s.outputs.busy = true ↔ s.ph ≠ .idle) ∧ (s.outputs.cmdReady = true ↔ s.ph = .idle)) ∧
  (∀ s t : State, step s = .next t → (s.hostAt 0).rst = false →
    ((s.outputs.busy = false ∧ t.outputs.busy = true) ↔ s.StartsScan) ∧
    ((s.outputs.busy = true ∧ t.outputs.busy = false) ↔ (s.ph = .writ ∧ s.i = 15))) ∧
  (∀ s t : State, step s = .next t → (s.hostAt 0).rst = true → t.outputs.busy = false) ∧
  (∀ p : Params, (State.resetOf p).outputs.busy = false)

/-- R23, R93: `I` is written only by the acceptance of a `SCAN`, to 0, and by the end of a scan step, to the next index
modulo 16 (and by reset). -/
def Obligations.ScanIndexWriters : Prop :=
  ∀ s t : State, step s = .next t → (s.hostAt 0).rst = false →
    (s.StartsScan → t.i = 0) ∧ (s.ph = .writ → t.i = s.i + 1) ∧ (s.ph ≠ .writ → ¬ s.StartsScan → t.i = s.i)

/-- R32, R181: no step, reset included, changes `MAP` or `SETTLE_CYCLES`, and so none changes `CFG_ERR`. -/
def Obligations.ParametersNeverChange : Prop :=
  ∀ (n : Nat) (s t : State), runEdges n s = .next t →
    t.params = s.params ∧ t.outputs.cfgErr = s.outputs.cfgErr ∧ t.edge = s.edge + n

/-! ### Reset (file 70, section 1) -/

/-- R180, R182: at every edge with `RST = 1`, in whatever phase and whatever the host offers, all registers take their
reset values together, and nothing else happens; a scan in progress is abandoned. And only then: in an instance that can
be built (`SETTLE_CYCLES >= 1`, R7) no edge with `RST = 0` gives all registers their reset values. -/
def Obligations.ResetEdgeClearsEverything : Prop :=
  (∀ s t : State, step s = .next t → (s.hostAt 0).rst = false → 1 ≤ s.params.settleCycles → ¬ InResetState t) ∧
  ∀ s : State, (s.hostAt 0).rst = true →
    ∃ t, step s = .next t ∧ InResetState t ∧ OneEdgeLater s t ∧
      t.outputs.busy = false ∧ t.outputs.cmdReady = true ∧ t.outputs.rspValid = false ∧ t.outputs.sel = 0 ∧
      t.outputs.board = 0

/-- R182: the `SCAN` that a reset edge abandons never gets a response: after `k` edges of the scan and a reset edge, a
quiet host sees none, however long it waits. -/
def Obligations.AbandonedScanNeverAnswers : Prop :=
  ∀ (s t : State) (k n : Nat), s.StartsScan → s.NoResetFor (k + 1) → (s.hostAt (k + 1)).rst = true →
    k < 16 * stepEdges s.params →
    (∀ m, m < n → (s.hostAt (k + 2 + m)).rst = false ∧ (s.hostAt (k + 2 + m)).cmdValid = false) →
    runEdges (k + 2) s = .next t → InResetState t ∧ responsesOver (k + 2 + n) s = []

/-- R180 and 95_test_vectors.md V40: the registers of the model's reset state hold the values the rule states. The
instance (`MAP_LINEAR`, `SETTLE_CYCLES = 1`) is the model's choice (notes/assumptions/1.md); nothing here says it. -/
def Obligations.ResetStateHoldsResetValues : Prop :=
  (∀ p : Params, InResetState (State.resetOf p) ∧ (State.resetOf p).params = p) ∧ InResetState State.reset

/-! ### The table (file 42) -/

/-- R78: element `k` of the ROM word of scan index `i` is its bits `[4k+3:4k]`, and the pair of line `j` is element `2j`,
the row, then element `2j + 1`, the column; the table is read at the scan index. R118: `Valid(MAP)` is (a) every element
at most 7 and (b) the 64 pairs pairwise distinct; given (a), (b) is that every cell is named by exactly one channel; and
`CFG_ERR = NOT Valid(MAP)`. -/
def Obligations.ValidTableIsABijection : Prop :=
  ∀ m : MapTable,
    let rangeA : Prop := ∀ (i : Addr) (k : Fin 8), romElement (romRead m i) k ≤ 7
    let injB : Prop := ∀ (i i' : Addr) (j j' : Line), mapPair m i j = mapPair m i' j' → i = i' ∧ j = j'
    let coverB : Prop := ∀ r c : Coord,
      ∃! ch : Addr × Line, mapPair m ch.1 ch.2 = (BitVec.ofNat 4 r.val, BitVec.ofNat 4 c.val)
    (∀ i : Addr, romRead m i = m[i.toNat] ∧
      (∀ (k : Fin 8) (b : Fin 4), (romElement (romRead m i) k).getLsbD b = (romRead m i).getLsbD (4 * k.val + b.val)) ∧
      (∀ j : Line, mapPair m i j =
        (romElement (romRead m i) ⟨2 * j.val, by omega⟩, romElement (romRead m i) ⟨2 * j.val + 1, by omega⟩))) ∧
    (validMap m = true ↔ rangeA ∧ injB) ∧ (rangeA → (injB ↔ coverB)) ∧
      (∀ s : State, s.params.map = m → (s.outputs.cfgErr = true ↔ ¬ (rangeA ∧ injB)))

/-- R119: the mask computation gives `Valid`, and when it says yes the mask ends all ones. -/
def Obligations.SeenMaskComputesValid : Prop :=
  ∀ m : MapTable, validBySeen m = validMap m ∧ (validBySeen m = true → (seenScan m).1 = BitVec.allOnes 64)

/-! ### The scan as a whole (file 43) -/

/-- R126, R127, R191: one scan step, from its `ADDR` edge, takes `SETTLE_CYCLES + 3` edges: after the first the select
lines hold `GRAY(I)`, which stays; after `SETTLE_CYCLES + 2` the sample is the settled one of address `GRAY(I)`; after
the last the four cells are written and the step is over. -/
def Obligations.ScanStepIsAddressSettleSampleWrite : Prop :=
  ∀ s : State, s.ph = .addr → s.cfgErr = false → s.NoResetFor (stepEdges s.params) →
    (∀ n, n ≤ s.params.settleCycles → ∃ t, runEdges (n + 1) s = .next t ∧ t.ph = .wait ∧ t.sel = gray s.i ∧
      t.i = s.i ∧ t.age = n ∧ t.brd = s.brd ∧ t.smp = s.smp) ∧
    (∃ t, runEdges (s.params.settleCycles + 2) s = .next t ∧ t.ph = .writ ∧ t.sel = gray s.i ∧ t.i = s.i ∧
      t.smp = s.envAt (s.params.settleCycles + 1) (gray s.i) ∧ t.brd = s.brd) ∧
    (∃ t, runEdges (stepEdges s.params) s = .next t ∧ t.i = s.i + 1 ∧
      t.ph = (if s.i = 15 then .idle else .addr) ∧ t.sel = gray s.i ∧ t.age = s.params.settleCycles ∧
      t.smp = s.envAt (s.params.settleCycles + 1) (gray s.i) ∧
      (∀ (j : Line) (r c : Coord), mapPair s.params.map s.i j = (BitVec.ofNat 4 r.val, BitVec.ofNat 4 c.val) →
        t.cell r c = !(s.envAt (s.params.settleCycles + 1) (gray s.i)).getLsbD j) ∧
      (∀ r c : Coord, (∀ j : Line, mapPair s.params.map s.i j ≠ (BitVec.ofNat 4 r.val, BitVec.ofNat 4 c.val)) →
        t.cell r c = s.cell r c))

/-- R132, file 43 section 1, R193: a `SCAN` accepted on a valid table and left alone by reset ends after
`16 * (SETTLE_CYCLES + 3)` more edges, with `I = 0`, `PH = IDLE`, `SEL = 8`, `AGE = SETTLE_CYCLES`, `SMP` the sixteenth
sample, the response `(OK, 0)`, and every cell the inverted bit of its own channel's sample, whatever the board held
before. -/
def Obligations.CompletedScanIsTheDecodedBoard : Prop :=
  ∀ s : State, s.StartsScan → s.NoResetFor (scanEdges s.params) →
    ∃ t, runEdges (scanEdges s.params) s = .next t ∧ t.i = 0 ∧ t.ph = .idle ∧ t.sel = 8 ∧
      t.age = s.params.settleCycles ∧ t.smp = s.envAt (sampleEdge s.params 15) 8 ∧ Answered t .ok 0 ∧
      (∀ (i : Addr) (j : Line) (r c : Coord),
        mapPair s.params.map i j = (BitVec.ofNat 4 r.val, BitVec.ofNat 4 c.val) →
        t.cell r c = !(s.envAt (sampleEdge s.params i) (gray i)).getLsbD j) ∧
      (∀ r c : Coord, ∃ (i : Addr) (j : Line),
        mapPair s.params.map i j = (BitVec.ofNat 4 r.val, BitVec.ofNat 4 c.val))

/-- R136: after the `WRIT` edge of step `k` and until that of the next step, the cells of steps 0..k hold this scan's
values and all other cells hold what they held when `SCAN` was accepted; the `BOARD` port shows just this board. -/
def Obligations.BoardDuringAScanIsPartlyUpdated : Prop :=
  ∀ (s : State) (k : Addr) (n : Nat), s.StartsScan → s.NoResetFor (1 + (k.toNat + 1) * stepEdges s.params + n) →
    n < stepEdges s.params → (k = 15 → n = 0) →
    ∃ t, runEdges (1 + (k.toNat + 1) * stepEdges s.params + n) s = .next t ∧
      (∀ (i : Addr) (j : Line) (r c : Coord),
        mapPair s.params.map i j = (BitVec.ofNat 4 r.val, BitVec.ofNat 4 c.val) →
        t.outputs.board.getLsbD (8 * r.val + c.val) =
          if i.toNat ≤ k.toNat then !(s.envAt (sampleEdge s.params i) (gray i)).getLsbD j else s.cell r c)

/-- File 40, section 1 (R92): `GRAY` and `GRAYINV` are inverse bijections, bit by bit as the rule gives them, and a
scan puts every address on the select lines at the step `GRAYINV` names. -/
def Obligations.ScanVisitsEveryAddressAtItsIndex : Prop :=
  (∀ a : Addr, gray (grayInv a) = a ∧ grayInv (gray a) = a ∧ (grayInv a).getLsbD 3 = a.getLsbD 3 ∧
    (grayInv a).getLsbD 2 = (a.getLsbD 3 ^^ a.getLsbD 2) ∧
    (grayInv a).getLsbD 1 = (a.getLsbD 3 ^^ a.getLsbD 2 ^^ a.getLsbD 1) ∧
    (grayInv a).getLsbD 0 = (a.getLsbD 3 ^^ a.getLsbD 2 ^^ a.getLsbD 1 ^^ a.getLsbD 0)) ∧
  (∀ (s : State) (a : Addr), s.StartsScan → s.NoResetFor (scanEdges s.params) →
    ∃ t, runEdges (1 + (grayInv a).toNat * stepEdges s.params + 1) s = .next t ∧ t.outputs.sel = a ∧ t.ph = .wait ∧
      t.i = grayInv a)

/-- R133: two scans in a row under an unchanged static stub give the identical board, and agree in `I`, `SEL`, `SMP` and
`AGE`. -/
def Obligations.ScanIsIdempotentUnderAStaticStub : Prop :=
  ∀ (s : State) (stub : Stub), s.StartsScan → s.NoResetFor (2 * scanEdges s.params) →
    (s.hostAt (scanEdges s.params)).cmdValid = true → (s.hostAt (scanEdges s.params)).cmd.op = 0x1 →
    s.StaticFor stub (2 * scanEdges s.params) →
    ∃ t u, runEdges (scanEdges s.params) s = .next t ∧ runEdges (scanEdges s.params) t = .next u ∧
      u.brd = t.brd ∧ u.board = t.board ∧ t.i = 0 ∧ u.i = 0 ∧ t.sel = 8 ∧ u.sel = 8 ∧
      t.smp = stub[index16 8] ∧ u.smp = stub[index16 8] ∧
      t.age = s.params.settleCycles ∧ u.age = s.params.settleCycles ∧ Answered t .ok 0 ∧ Answered u .ok 0

/-- R134: a stub that returns all output bits 1 yields a board of all zeros, all bits 0 yields all ones, for every valid
table. -/
def Obligations.PolarityExtremes : Prop :=
  ∀ (s : State) (level : Bool), s.StartsScan → s.NoResetFor (scanEdges s.params) →
    s.StaticFor (Vector.replicate 16 (if level then 0xF else 0x0)) (scanEdges s.params) →
    ∃ t, runEdges (scanEdges s.params) s = .next t ∧
      ∀ r : Coord, t.brd[r] = if level then 0x00 else 0xFF

/-- File 41, section 5 (R109), and file 43, section 4 (R131): the state after a completed scan does not
depend on the board, the select lines, the sample, the settle count or the response before it: a `SETA` or an `RDO`
before a scan leaves no trace in its result. -/
def Obligations.ScanForgetsWhatWasBefore : Prop :=
  ∀ s s' : State, s.StartsScan → s.NoResetFor (scanEdges s.params) → s'.ph = .idle → s'.params = s.params →
    s'.edge = s.edge → s'.hostIn = s.hostIn → s'.env = s.env →
    ∃ t, runEdges (scanEdges s.params) s = .next t ∧ runEdges (scanEdges s.params) s' = .next t

/-- R188 (b), R193: a `SCAN` gives exactly one response, `(OK, 0)`, at its last edge, whatever the host offers
meanwhile. -/
def Obligations.ScanGivesExactlyOneResponse : Prop :=
  ∀ s : State, s.StartsScan → s.NoResetFor (scanEdges s.params) →
    responsesOver (scanEdges s.params - 1) s = [] ∧ responsesOver (scanEdges s.params) s = [(.ok, 0)]

/-- R188 (a) and 95_test_vectors.md V44: a command held through a scan is accepted at the first edge after the scan's
last, on the completed board. -/
def Obligations.CommandHeldThroughAScanIsAccepted : Prop :=
  ∀ (s : State) (w : CommandWord) (i : Instr), s.StartsScan → decode w = .ok i → s.NoResetFor (scanEdges s.params) →
    (∀ k, 1 ≤ k → k ≤ scanEdges s.params → s.hostAt k = HostEdge.offer w) →
    ∃ t, runEdges (scanEdges s.params) s = .next t ∧ t.rspValid = true ∧ t.Accepts w ∧
      runEdges (scanEdges s.params + 1) s = exec i t

/-- File 20, R62, and file 44, section 5: from an idle state on, as long as no `SCAN` is offered and no reset applied,
the board is held, over any number of edges and whatever else the host offers. -/
def Obligations.BoardPersistsBetweenScans : Prop :=
  ∀ (s t : State) (n : Nat), s.ph = .idle → s.NoResetFor n →
    (∀ k, k < n → (s.hostAt k).cmdValid = true → (s.hostAt k).cmd.op ≠ 0x1) →
    runEdges n s = .next t → t.brd = s.brd ∧ t.board = s.board ∧ t.ph = .idle

/-! ### The invariant -/

/-- The invariant of Safety.lean holds at reset, for the model's instance and for every instance with
`SETTLE_CYCLES >= 1`. -/
def Obligations.ResetMeetsTheInvariant : Prop :=
  State.reset.Inv ∧ ∀ p : Params, 1 ≤ p.settleCycles → (State.resetOf p).Inv

/-- Every step keeps the invariant of Safety.lean (R23, R31, R77, R126, R127, R157), from every state that meets it,
whatever the host and the environment do. -/
def Obligations.EveryStepKeepsTheInvariant : Prop :=
  ∀ s t : State, s.Inv → step s = .next t → t.Inv

/-- No command can hang or stop the block (R155, R193): from every state that meets the invariant every step, and so
every run, answers a next state. -/
def Obligations.NoRunStops : Prop :=
  ∀ (s : State) (n : Nat), s.Inv → ∃ t, runEdges n s = .next t ∧ t.Inv

/-! ### The two views of the board -/

/-- R22: the packed view on the `BOARD` port, row 7 in the high byte, and the grid view are the same cells. -/
def Obligations.BoardPortIsThePackedView : Prop :=
  ∀ s : State,
    s.outputs.board = (s.brd[7] ++ s.brd[6] ++ s.brd[5] ++ s.brd[4] ++ s.brd[3] ++ s.brd[2] ++ s.brd[1] ++ s.brd[0] :
      BitVec (8 + 8 + 8 + 8 + 8 + 8 + 8 + 8)) ∧
    ∀ r c : Coord, s.cell r c = s.brd[r].getLsbD c ∧ s.outputs.board.getLsbD (8 * r.val + c.val) = s.cell r c
end

