-- ==== Sys2Proof/Laws/Decode.lean ====
section
/-! SUPPORT. The fields of a command word put together, and what the decoder answers by opcode. -/

namespace Sys2Proof

/-- Every bit of a command word: `X` below `Y` below `OP` (R71). -/
theorem commandWord_getLsbD (op : BitVec 4) (y x : BitVec 32) (n : Nat) :
    (commandWord op y x).getLsbD n =
      if n < 32 then x.getLsbD n else if n - 32 < 32 then y.getLsbD (n - 32) else op.getLsbD (n - 32 - 32) := by
  have h : (commandWord op y x).getLsbD n = (op ++ y ++ x : BitVec (4 + 32 + 32)).getLsbD n := rfl
  rw [h, BitVec.getLsbD_append, BitVec.getLsbD_append]

@[simp] theorem op_commandWord (op : BitVec 4) (y x : BitVec 32) : (commandWord op y x).op = op := by
  ext k hk
  rw [CommandWord.op, BitVec.getElem_extractLsb', commandWord_getLsbD, if_neg (by omega), if_neg (by omega),
    show 64 + k - 32 - 32 = k by omega]
  exact BitVec.getLsbD_eq_getElem hk

@[simp] theorem y_commandWord (op : BitVec 4) (y x : BitVec 32) : (commandWord op y x).y = y := by
  ext k hk
  rw [CommandWord.y, BitVec.getElem_extractLsb', commandWord_getLsbD, if_neg (by omega), if_pos (by omega),
    show 32 + k - 32 = k by omega]
  exact BitVec.getLsbD_eq_getElem hk

@[simp] theorem x_commandWord (op : BitVec 4) (y x : BitVec 32) : (commandWord op y x).x = x := by
  ext k hk
  rw [CommandWord.x, BitVec.getElem_extractLsb', commandWord_getLsbD, if_pos (by omega), show 0 + k = k by omega]
  exact BitVec.getLsbD_eq_getElem hk

theorem decode_of_op_1 {w : CommandWord} (h : w.op = 0x1) : decode w = .ok .scan := by simp [decode, h]

theorem decode_of_op_2 {w : CommandWord} (h : w.op = 0x2) : decode w = .ok (.getsq w.x.toNat w.y.toNat) := by
  simp [decode, h]

theorem decode_of_op_3 {w : CommandWord} (h : w.op = 0x3) : decode w = .ok (.getrow w.x.toNat) := by simp [decode, h]

theorem decode_of_op_4 {w : CommandWord} (h : w.op = 0x4) : decode w = .ok (.seta w.x.toNat) := by simp [decode, h]

theorem decode_of_op_5 {w : CommandWord} (h : w.op = 0x5) : decode w = .ok .rdo := by simp [decode, h]

/-- An operand that fits its field is the field's value. -/
theorem toNat_ofNat_of_fits {v : Nat} (h : operandFits v = true) : (BitVec.ofNat 32 v).toNat = v := by
  simp only [operandFits, decide_eq_true_eq] at h
  simp only [BitVec.toNat_ofNat]
  exact Nat.mod_eq_of_lt h

end Sys2Proof
end

