-- ==== Sys2Proof/Laws/State.lean ====
section
/-! SUPPORT. What each register write does to each field of State, once, so that no later proof unfolds a record
update: one lemma per field per update, true by rfl. -/

namespace Sys2Proof.Machine

open Sys2Proof

/-! ### edgeDefaults -/

@[simp] theorem edgeDefaults_brd (s : State) : (edgeDefaults s).brd = s.brd := rfl
@[simp] theorem edgeDefaults_i (s : State) : (edgeDefaults s).i = s.i := rfl
@[simp] theorem edgeDefaults_ph (s : State) : (edgeDefaults s).ph = s.ph := rfl
@[simp] theorem edgeDefaults_sel (s : State) : (edgeDefaults s).sel = s.sel := rfl
@[simp] theorem edgeDefaults_smp (s : State) : (edgeDefaults s).smp = s.smp := rfl
@[simp] theorem edgeDefaults_age (s : State) : (edgeDefaults s).age = ageCount s.params s.age := rfl
@[simp] theorem edgeDefaults_rspValid (s : State) : (edgeDefaults s).rspValid = false := rfl
@[simp] theorem edgeDefaults_rspStatus (s : State) : (edgeDefaults s).rspStatus = s.rspStatus := rfl
@[simp] theorem edgeDefaults_rspData (s : State) : (edgeDefaults s).rspData = s.rspData := rfl
@[simp] theorem edgeDefaults_params (s : State) : (edgeDefaults s).params = s.params := rfl
@[simp] theorem edgeDefaults_edge (s : State) : (edgeDefaults s).edge = s.edge + 1 := rfl
@[simp] theorem edgeDefaults_hostIn (s : State) : (edgeDefaults s).hostIn = s.hostIn.tail := rfl
@[simp] theorem edgeDefaults_env (s : State) : (edgeDefaults s).env = s.env.tail := rfl
@[simp] theorem edgeDefaults_cfgErr (s : State) : (edgeDefaults s).cfgErr = s.cfgErr := rfl

/-! ### respond -/

@[simp] theorem respond_brd (s : State) (st : Status) (v : BitVec 8) : (respond s st v).brd = s.brd := rfl
@[simp] theorem respond_i (s : State) (st : Status) (v : BitVec 8) : (respond s st v).i = s.i := rfl
@[simp] theorem respond_ph (s : State) (st : Status) (v : BitVec 8) : (respond s st v).ph = s.ph := rfl
@[simp] theorem respond_sel (s : State) (st : Status) (v : BitVec 8) : (respond s st v).sel = s.sel := rfl
@[simp] theorem respond_smp (s : State) (st : Status) (v : BitVec 8) : (respond s st v).smp = s.smp := rfl
@[simp] theorem respond_age (s : State) (st : Status) (v : BitVec 8) : (respond s st v).age = s.age := rfl
@[simp] theorem respond_rspValid (s : State) (st : Status) (v : BitVec 8) : (respond s st v).rspValid = true := rfl
@[simp] theorem respond_rspStatus (s : State) (st : Status) (v : BitVec 8) : (respond s st v).rspStatus = st := rfl
@[simp] theorem respond_rspData (s : State) (st : Status) (v : BitVec 8) : (respond s st v).rspData = v := rfl
@[simp] theorem respond_params (s : State) (st : Status) (v : BitVec 8) : (respond s st v).params = s.params := rfl
@[simp] theorem respond_edge (s : State) (st : Status) (v : BitVec 8) : (respond s st v).edge = s.edge := rfl
@[simp] theorem respond_hostIn (s : State) (st : Status) (v : BitVec 8) : (respond s st v).hostIn = s.hostIn := rfl
@[simp] theorem respond_env (s : State) (st : Status) (v : BitVec 8) : (respond s st v).env = s.env := rfl
@[simp] theorem respond_cfgErr (s : State) (st : Status) (v : BitVec 8) : (respond s st v).cfgErr = s.cfgErr := rfl

/-! ### raiseError -/

@[simp] theorem raiseError_brd (s : State) (st : Status) : (raiseError s st).brd = s.brd := rfl
@[simp] theorem raiseError_i (s : State) (st : Status) : (raiseError s st).i = s.i := rfl
@[simp] theorem raiseError_ph (s : State) (st : Status) : (raiseError s st).ph = s.ph := rfl
@[simp] theorem raiseError_sel (s : State) (st : Status) : (raiseError s st).sel = s.sel := rfl
@[simp] theorem raiseError_smp (s : State) (st : Status) : (raiseError s st).smp = s.smp := rfl
@[simp] theorem raiseError_age (s : State) (st : Status) : (raiseError s st).age = s.age := rfl
@[simp] theorem raiseError_rspValid (s : State) (st : Status) : (raiseError s st).rspValid = true := rfl
@[simp] theorem raiseError_rspStatus (s : State) (st : Status) : (raiseError s st).rspStatus = st := rfl
@[simp] theorem raiseError_rspData (s : State) (st : Status) : (raiseError s st).rspData = 0 := rfl
@[simp] theorem raiseError_params (s : State) (st : Status) : (raiseError s st).params = s.params := rfl
@[simp] theorem raiseError_edge (s : State) (st : Status) : (raiseError s st).edge = s.edge := rfl
@[simp] theorem raiseError_hostIn (s : State) (st : Status) : (raiseError s st).hostIn = s.hostIn := rfl
@[simp] theorem raiseError_env (s : State) (st : Status) : (raiseError s st).env = s.env := rfl
@[simp] theorem raiseError_cfgErr (s : State) (st : Status) : (raiseError s st).cfgErr = s.cfgErr := rfl

/-! ### uSetA -/

@[simp] theorem uSetA_brd (s : State) (a : Addr) : (uSetA s a).brd = s.brd := rfl
@[simp] theorem uSetA_i (s : State) (a : Addr) : (uSetA s a).i = s.i := rfl
@[simp] theorem uSetA_ph (s : State) (a : Addr) : (uSetA s a).ph = s.ph := rfl
@[simp] theorem uSetA_sel (s : State) (a : Addr) : (uSetA s a).sel = a := rfl
@[simp] theorem uSetA_smp (s : State) (a : Addr) : (uSetA s a).smp = s.smp := rfl
@[simp] theorem uSetA_age (s : State) (a : Addr) : (uSetA s a).age = 0 := rfl
@[simp] theorem uSetA_rspValid (s : State) (a : Addr) : (uSetA s a).rspValid = s.rspValid := rfl
@[simp] theorem uSetA_rspStatus (s : State) (a : Addr) : (uSetA s a).rspStatus = s.rspStatus := rfl
@[simp] theorem uSetA_rspData (s : State) (a : Addr) : (uSetA s a).rspData = s.rspData := rfl
@[simp] theorem uSetA_params (s : State) (a : Addr) : (uSetA s a).params = s.params := rfl
@[simp] theorem uSetA_edge (s : State) (a : Addr) : (uSetA s a).edge = s.edge := rfl
@[simp] theorem uSetA_hostIn (s : State) (a : Addr) : (uSetA s a).hostIn = s.hostIn := rfl
@[simp] theorem uSetA_env (s : State) (a : Addr) : (uSetA s a).env = s.env := rfl
@[simp] theorem uSetA_cfgErr (s : State) (a : Addr) : (uSetA s a).cfgErr = s.cfgErr := rfl

/-! ### uRdo -/

@[simp] theorem uRdo_brd (s : State) (v : Sample) : (uRdo s v).brd = s.brd := rfl
@[simp] theorem uRdo_i (s : State) (v : Sample) : (uRdo s v).i = s.i := rfl
@[simp] theorem uRdo_ph (s : State) (v : Sample) : (uRdo s v).ph = s.ph := rfl
@[simp] theorem uRdo_sel (s : State) (v : Sample) : (uRdo s v).sel = s.sel := rfl
@[simp] theorem uRdo_smp (s : State) (v : Sample) : (uRdo s v).smp = v := rfl
@[simp] theorem uRdo_age (s : State) (v : Sample) : (uRdo s v).age = s.age := rfl
@[simp] theorem uRdo_rspValid (s : State) (v : Sample) : (uRdo s v).rspValid = s.rspValid := rfl
@[simp] theorem uRdo_rspStatus (s : State) (v : Sample) : (uRdo s v).rspStatus = s.rspStatus := rfl
@[simp] theorem uRdo_rspData (s : State) (v : Sample) : (uRdo s v).rspData = s.rspData := rfl
@[simp] theorem uRdo_params (s : State) (v : Sample) : (uRdo s v).params = s.params := rfl
@[simp] theorem uRdo_edge (s : State) (v : Sample) : (uRdo s v).edge = s.edge := rfl
@[simp] theorem uRdo_hostIn (s : State) (v : Sample) : (uRdo s v).hostIn = s.hostIn := rfl
@[simp] theorem uRdo_env (s : State) (v : Sample) : (uRdo s v).env = s.env := rfl
@[simp] theorem uRdo_cfgErr (s : State) (v : Sample) : (uRdo s v).cfgErr = s.cfgErr := rfl

/-! ### setPhase -/

@[simp] theorem setPhase_brd (s : State) (p : Phase) : (setPhase s p).brd = s.brd := rfl
@[simp] theorem setPhase_i (s : State) (p : Phase) : (setPhase s p).i = s.i := rfl
@[simp] theorem setPhase_ph (s : State) (p : Phase) : (setPhase s p).ph = p := rfl
@[simp] theorem setPhase_sel (s : State) (p : Phase) : (setPhase s p).sel = s.sel := rfl
@[simp] theorem setPhase_smp (s : State) (p : Phase) : (setPhase s p).smp = s.smp := rfl
@[simp] theorem setPhase_age (s : State) (p : Phase) : (setPhase s p).age = s.age := rfl
@[simp] theorem setPhase_rspValid (s : State) (p : Phase) : (setPhase s p).rspValid = s.rspValid := rfl
@[simp] theorem setPhase_rspStatus (s : State) (p : Phase) : (setPhase s p).rspStatus = s.rspStatus := rfl
@[simp] theorem setPhase_rspData (s : State) (p : Phase) : (setPhase s p).rspData = s.rspData := rfl
@[simp] theorem setPhase_params (s : State) (p : Phase) : (setPhase s p).params = s.params := rfl
@[simp] theorem setPhase_edge (s : State) (p : Phase) : (setPhase s p).edge = s.edge := rfl
@[simp] theorem setPhase_hostIn (s : State) (p : Phase) : (setPhase s p).hostIn = s.hostIn := rfl
@[simp] theorem setPhase_env (s : State) (p : Phase) : (setPhase s p).env = s.env := rfl
@[simp] theorem setPhase_cfgErr (s : State) (p : Phase) : (setPhase s p).cfgErr = s.cfgErr := rfl

/-! ### setIndex -/

@[simp] theorem setIndex_brd (s : State) (v : Addr) : (setIndex s v).brd = s.brd := rfl
@[simp] theorem setIndex_i (s : State) (v : Addr) : (setIndex s v).i = v := rfl
@[simp] theorem setIndex_ph (s : State) (v : Addr) : (setIndex s v).ph = s.ph := rfl
@[simp] theorem setIndex_sel (s : State) (v : Addr) : (setIndex s v).sel = s.sel := rfl
@[simp] theorem setIndex_smp (s : State) (v : Addr) : (setIndex s v).smp = s.smp := rfl
@[simp] theorem setIndex_age (s : State) (v : Addr) : (setIndex s v).age = s.age := rfl
@[simp] theorem setIndex_rspValid (s : State) (v : Addr) : (setIndex s v).rspValid = s.rspValid := rfl
@[simp] theorem setIndex_rspStatus (s : State) (v : Addr) : (setIndex s v).rspStatus = s.rspStatus := rfl
@[simp] theorem setIndex_rspData (s : State) (v : Addr) : (setIndex s v).rspData = s.rspData := rfl
@[simp] theorem setIndex_params (s : State) (v : Addr) : (setIndex s v).params = s.params := rfl
@[simp] theorem setIndex_edge (s : State) (v : Addr) : (setIndex s v).edge = s.edge := rfl
@[simp] theorem setIndex_hostIn (s : State) (v : Addr) : (setIndex s v).hostIn = s.hostIn := rfl
@[simp] theorem setIndex_env (s : State) (v : Addr) : (setIndex s v).env = s.env := rfl
@[simp] theorem setIndex_cfgErr (s : State) (v : Addr) : (setIndex s v).cfgErr = s.cfgErr := rfl

/-! ### setBoard -/

@[simp] theorem setBoard_brd (s : State) (b : Board) : (setBoard s b).brd = b := rfl
@[simp] theorem setBoard_i (s : State) (b : Board) : (setBoard s b).i = s.i := rfl
@[simp] theorem setBoard_ph (s : State) (b : Board) : (setBoard s b).ph = s.ph := rfl
@[simp] theorem setBoard_sel (s : State) (b : Board) : (setBoard s b).sel = s.sel := rfl
@[simp] theorem setBoard_smp (s : State) (b : Board) : (setBoard s b).smp = s.smp := rfl
@[simp] theorem setBoard_age (s : State) (b : Board) : (setBoard s b).age = s.age := rfl
@[simp] theorem setBoard_rspValid (s : State) (b : Board) : (setBoard s b).rspValid = s.rspValid := rfl
@[simp] theorem setBoard_rspStatus (s : State) (b : Board) : (setBoard s b).rspStatus = s.rspStatus := rfl
@[simp] theorem setBoard_rspData (s : State) (b : Board) : (setBoard s b).rspData = s.rspData := rfl
@[simp] theorem setBoard_params (s : State) (b : Board) : (setBoard s b).params = s.params := rfl
@[simp] theorem setBoard_edge (s : State) (b : Board) : (setBoard s b).edge = s.edge := rfl
@[simp] theorem setBoard_hostIn (s : State) (b : Board) : (setBoard s b).hostIn = s.hostIn := rfl
@[simp] theorem setBoard_env (s : State) (b : Board) : (setBoard s b).env = s.env := rfl
@[simp] theorem setBoard_cfgErr (s : State) (b : Board) : (setBoard s b).cfgErr = s.cfgErr := rfl

/-! ### resetEdge -/

@[simp] theorem resetEdge_brd (s : State) : (resetEdge s).brd = Vector.replicate 8 0 := rfl
@[simp] theorem resetEdge_i (s : State) : (resetEdge s).i = 0 := rfl
@[simp] theorem resetEdge_ph (s : State) : (resetEdge s).ph = .idle := rfl
@[simp] theorem resetEdge_sel (s : State) : (resetEdge s).sel = 0 := rfl
@[simp] theorem resetEdge_smp (s : State) : (resetEdge s).smp = 0 := rfl
@[simp] theorem resetEdge_age (s : State) : (resetEdge s).age = 0 := rfl
@[simp] theorem resetEdge_rspValid (s : State) : (resetEdge s).rspValid = false := rfl
@[simp] theorem resetEdge_rspStatus (s : State) : (resetEdge s).rspStatus = .ok := rfl
@[simp] theorem resetEdge_rspData (s : State) : (resetEdge s).rspData = 0 := rfl
@[simp] theorem resetEdge_params (s : State) : (resetEdge s).params = s.params := rfl
@[simp] theorem resetEdge_edge (s : State) : (resetEdge s).edge = s.edge + 1 := rfl
@[simp] theorem resetEdge_hostIn (s : State) : (resetEdge s).hostIn = s.hostIn.tail := rfl
@[simp] theorem resetEdge_env (s : State) : (resetEdge s).env = s.env.tail := rfl
@[simp] theorem resetEdge_cfgErr (s : State) : (resetEdge s).cfgErr = s.cfgErr := rfl

/-! ### offerNext -/

@[simp] theorem offerNext_brd (s : State) (w : CommandWord) : (offerNext s w).brd = s.brd := rfl
@[simp] theorem offerNext_i (s : State) (w : CommandWord) : (offerNext s w).i = s.i := rfl
@[simp] theorem offerNext_ph (s : State) (w : CommandWord) : (offerNext s w).ph = .idle := rfl
@[simp] theorem offerNext_sel (s : State) (w : CommandWord) : (offerNext s w).sel = s.sel := rfl
@[simp] theorem offerNext_smp (s : State) (w : CommandWord) : (offerNext s w).smp = s.smp := rfl
@[simp] theorem offerNext_age (s : State) (w : CommandWord) : (offerNext s w).age = s.age := rfl
@[simp] theorem offerNext_rspValid (s : State) (w : CommandWord) : (offerNext s w).rspValid = s.rspValid := rfl
@[simp] theorem offerNext_rspStatus (s : State) (w : CommandWord) : (offerNext s w).rspStatus = s.rspStatus := rfl
@[simp] theorem offerNext_rspData (s : State) (w : CommandWord) : (offerNext s w).rspData = s.rspData := rfl
@[simp] theorem offerNext_params (s : State) (w : CommandWord) : (offerNext s w).params = s.params := rfl
@[simp] theorem offerNext_edge (s : State) (w : CommandWord) : (offerNext s w).edge = s.edge := rfl
@[simp] theorem offerNext_hostIn (s : State) (w : CommandWord) : (offerNext s w).hostIn = HostEdge.offer w :: s.hostIn.tail := rfl
@[simp] theorem offerNext_env (s : State) (w : CommandWord) : (offerNext s w).env = s.env := rfl
@[simp] theorem offerNext_cfgErr (s : State) (w : CommandWord) : (offerNext s w).cfgErr = s.cfgErr := rfl

/-! ### The reset state -/

@[simp] theorem resetOf_brd (p : Params) : (State.resetOf p).brd = Vector.replicate 8 0 := rfl
@[simp] theorem resetOf_i (p : Params) : (State.resetOf p).i = 0 := rfl
@[simp] theorem resetOf_ph (p : Params) : (State.resetOf p).ph = .idle := rfl
@[simp] theorem resetOf_sel (p : Params) : (State.resetOf p).sel = 0 := rfl
@[simp] theorem resetOf_smp (p : Params) : (State.resetOf p).smp = 0 := rfl
@[simp] theorem resetOf_age (p : Params) : (State.resetOf p).age = 0 := rfl
@[simp] theorem resetOf_rspValid (p : Params) : (State.resetOf p).rspValid = false := rfl
@[simp] theorem resetOf_rspStatus (p : Params) : (State.resetOf p).rspStatus = .ok := rfl
@[simp] theorem resetOf_rspData (p : Params) : (State.resetOf p).rspData = 0 := rfl
@[simp] theorem resetOf_params (p : Params) : (State.resetOf p).params = p := rfl
@[simp] theorem resetOf_edge (p : Params) : (State.resetOf p).edge = 1 := rfl
@[simp] theorem resetOf_hostIn (p : Params) : (State.resetOf p).hostIn = [] := rfl
@[simp] theorem resetOf_env (p : Params) : (State.resetOf p).env = [] := rfl

end Sys2Proof.Machine
end

