-- ==== Sys2Proof/Laws/Ops.lean ====
section
/-! SUPPORT. What the shared operations do: operand forms, the table lookup, cells and the four cell writes, the
inputs at the coming edges, the sample. Later proofs cite these and do not unfold the operations. -/

namespace Sys2Proof.Machine

open Sys2Proof

/-! ### Operand forms -/

theorem boardOperand?_of_le {v : Nat} (h : v ≤ 7) : boardOperand? v = some ⟨v, by omega⟩ := by
  simp [boardOperand?, show v < 8 by omega]

theorem boardOperand?_of_gt {v : Nat} (h : 7 < v) : boardOperand? v = none := by
  simp [boardOperand?, show ¬ v < 8 by omega]

theorem boardOperand?_coord (c : Coord) : boardOperand? c.val = some c := by
  simp [boardOperand?, c.isLt]

theorem addrOperand?_of_le {v : Nat} (h : v ≤ 15) : addrOperand? v = some (BitVec.ofNat 4 v) := by
  simp [addrOperand?, h]

theorem addrOperand?_of_gt {v : Nat} (h : 15 < v) : addrOperand? v = none := by
  simp [addrOperand?, show ¬ v ≤ 15 by omega]

theorem coord?_eq_some_iff {v : BitVec 4} {c : Coord} : coord? v = some c ↔ v.toNat = c.val := by
  unfold coord?
  split
  · simp [Fin.ext_iff]
  · have := c.isLt
    simp
    omega

theorem coord?_eq_none_iff {v : BitVec 4} : coord? v = none ↔ 7 < v.toNat := by
  simp [coord?]
  omega

@[simp] theorem flip_val (y : Coord) : (flip y).val = 7 - y.val := rfl

theorem flip_flip (y : Coord) : flip (flip y) = y := by
  ext
  simp
  omega

/-! ### The table lookup -/

theorem romCell?_eq_some_iff {w : RomWord} {j : Line} {p : Coord × Coord} :
    romCell? w j = some p ↔ (romPair w j).1.toNat = p.1.val ∧ (romPair w j).2.toNat = p.2.val := by
  obtain ⟨r, c⟩ := p
  simp only [← coord?_eq_some_iff, romCell?]
  split <;> simp_all

theorem romCell?_eq_none_iff {w : RomWord} {j : Line} :
    romCell? w j = none ↔ 7 < (romPair w j).1.toNat ∨ 7 < (romPair w j).2.toNat := by
  simp only [← coord?_eq_none_iff, romCell?]
  split
  · simp_all
  · rename_i h
    cases h1 : coord? (romPair w j).1 <;> cases h2 : coord? (romPair w j).2 <;> simp_all

/-! ### Cells -/

theorem setCol_getLsbD (row : RowBits) (c k : Coord) (v : Bool) :
    (setCol row c v).getLsbD k = if k = c then v else row.getLsbD k := by
  have hone : (1#8 <<< c.val).getLsbD k = decide (k = c) := by
    revert c k
    decide
  have hk : decide (k.val < 8) = true := by simp
  cases v
  · simp only [setCol, Bool.false_eq_true, if_false, BitVec.getLsbD_and, BitVec.getLsbD_not, hone, hk]
    by_cases h : k = c <;> simp [h]
  · simp only [setCol, if_true, BitVec.getLsbD_or, hone]
    by_cases h : k = c <;> simp [h]

theorem cellRead_cellWrite (b : Board) (r c r' c' : Coord) (v : Bool) :
    cellRead (cellWrite b r c v) r' c' = if r' = r ∧ c' = c then v else cellRead b r' c' := by
  by_cases hr : r' = r
  · subst hr
    have : (cellWrite b r' c v)[r'] = setCol b[r'] c v := by simp [cellWrite]
    simp only [cellRead, this, setCol_getLsbD, true_and]
  · have hne : ¬ r.val = r'.val := fun h => hr (Fin.ext h.symm)
    have : (cellWrite b r c v)[r'] = b[r'] := by simp [cellWrite, hne]
    simp only [cellRead, this, hr, false_and, if_false]

theorem cellRead_replicate_zero (r c : Coord) : cellRead (Vector.replicate 8 0) r c = false := by
  simp [cellRead]

/-! ### The four cell writes of a scan step -/

/-- The writes answer a board exactly when no pair of the lines has an element above 7. -/
theorem writeLines_isSome_iff (w : RomWord) (smp : Sample) (js : List Line) (b : Board) :
    (writeLines w smp js b).isSome = true ↔ ∀ j ∈ js, (romCell? w j).isSome = true := by
  induction js generalizing b with
  | nil => simp [writeLines]
  | cons j js ih =>
    simp only [writeLines, List.mem_cons, forall_eq_or_imp]
    cases h : romCell? w j with
    | none => simp
    | some p => simp [ih]

/-- A cell that no line names keeps its value. -/
theorem writeLines_other {w : RomWord} {smp : Sample} {js : List Line} {b b' : Board}
    (h : writeLines w smp js b = some b') {r c : Coord} (hne : ∀ j ∈ js, romCell? w j ≠ some (r, c)) :
    cellRead b' r c = cellRead b r c := by
  induction js generalizing b with
  | nil => simp_all [writeLines]
  | cons j js ih =>
    simp only [writeLines] at h
    split at h
    · rename_i r₁ c₁ hcell
      rw [ih h fun k hk => hne k (List.mem_cons_of_mem _ hk), cellRead_cellWrite, if_neg]
      rintro ⟨rfl, rfl⟩
      exact hne j List.mem_cons_self hcell
    · cases h

/-- A cell that one line of a list of distinct cells names holds that line's decoded bit. -/
theorem writeLines_named {w : RomWord} {smp : Sample} {js : List Line} {b b' : Board}
    (h : writeLines w smp js b = some b') (hnd : (js.map (romCell? w)).Nodup) {j : Line} (hj : j ∈ js) {r c : Coord}
    (hcell : romCell? w j = some (r, c)) : cellRead b' r c = uDecode smp j := by
  induction js generalizing b with
  | nil => cases hj
  | cons k js ih =>
    simp only [writeLines] at h
    simp only [List.map_cons, List.nodup_cons] at hnd
    split at h
    · rename_i r₁ c₁ hk
      rcases List.mem_cons.1 hj with rfl | hmem
      · rw [hcell] at hk
        obtain ⟨rfl, rfl⟩ := Prod.mk.injEq .. ▸ Option.some.inj hk
        rw [writeLines_other h, cellRead_cellWrite, if_pos ⟨rfl, rfl⟩]
        intro k' hk' he
        exact hnd.1 (List.mem_map.2 ⟨k', hk', he.trans hcell.symm⟩)
      · exact ih h hnd.2 hmem
    · cases h

/-! ### The inputs at the coming edges, and the sample -/

theorem hostAt_edgeDefaults (s : State) (k : Nat) : (edgeDefaults s).hostAt k = s.hostAt (k + 1) := by
  simp [State.hostAt, edgeDefaults]

theorem envAt_edgeDefaults (s : State) (k : Nat) (a : Addr) : (edgeDefaults s).envAt k a = s.envAt (k + 1) a := by
  simp [State.envAt, edgeDefaults, show s.edge + 1 + 1 + k = s.edge + 1 + (k + 1) by omega]

theorem settled_iff (s : State) : s.settled = true ↔ s.age = s.params.settleCycles := by
  simp [State.settled]

theorem senseRead_of_settled {s : State} (h : s.age = s.params.settleCycles) : s.senseRead = s.envAt 0 s.sel := by
  simp [State.senseRead, (settled_iff s).2 h]

theorem senseRead_of_unsettled {s : State} (h : s.age ≠ s.params.settleCycles) :
    s.senseRead = Config.freeSample (s.edge + 1) := by
  simp [State.senseRead, State.settled, h]

/-! ### The settle counter -/

theorem ageCount_of_lt {p : Params} {n : Nat} (h : n < p.settleCycles) : ageCount p n = n + 1 := by
  simp [ageCount, h]

theorem ageCount_of_ge {p : Params} {n : Nat} (h : p.settleCycles ≤ n) : ageCount p n = n := by
  simp [ageCount, show ¬ n < p.settleCycles by omega]

theorem ageCount_le {p : Params} {n : Nat} (h : n ≤ p.settleCycles) : ageCount p n ≤ p.settleCycles := by
  unfold ageCount
  split <;> omega

/-! ### Status outputs -/

@[simp] theorem cmdReady_eq_true_iff (s : State) : s.cmdReady = true ↔ s.ph = .idle := by
  simp [State.cmdReady]

@[simp] theorem busy_eq_true_iff (s : State) : s.busy = true ↔ s.ph ≠ .idle := by
  simp [State.busy]

theorem cfgErr_eq_false_iff (s : State) : s.cfgErr = false ↔ validMap s.params.map = true := by
  simp [State.cfgErr]

end Sys2Proof.Machine
end

