-- ==== Sys2Proof/Laws/Edge.lean ====
section
/-! SUPPORT. Everything one clock edge can do: the acceptance of a command, the sequencer's edges, the step, and runs
of edges. -/

namespace Sys2Proof.Machine

open Sys2Proof

/-! ### The sequencer's edges -/

theorem sequencerEdge_of_idle {s : State} (h : s.ph = .idle) : sequencerEdge s = .next (edgeDefaults s) := by
  simp [sequencerEdge, h]

theorem sequencerEdge_of_addr {s : State} (h : s.ph = .addr) : sequencerEdge s = .next (addrEdge s) := by
  simp [sequencerEdge, h]

theorem sequencerEdge_of_wait {s : State} (h : s.ph = .wait) : sequencerEdge s = .next (waitEdge s) := by
  simp [sequencerEdge, h]

theorem sequencerEdge_of_writ {s : State} (h : s.ph = .writ) : sequencerEdge s = writEdge s := by
  simp [sequencerEdge, h]

theorem waitEdge_of_settled {s : State} (h : s.age = s.params.settleCycles) :
    waitEdge s = setPhase (uRdo (edgeDefaults s) (s.envAt 0 s.sel)) .writ := by
  simp [waitEdge, (settled_iff s).2 h, senseRead_of_settled h]

theorem waitEdge_of_unsettled {s : State} (h : s.age ≠ s.params.settleCycles) : waitEdge s = edgeDefaults s := by
  simp [waitEdge, State.settled, h]

theorem uNext_of_last {d : State} (h : d.i = 15) : uNext d = respond (setPhase (setIndex d 0) .idle) .ok 0 := by
  rw [uNext, if_pos h]

theorem uNext_of_not_last {d : State} (h : d.i ≠ 15) : uNext d = setPhase (setIndex d (d.i + 1)) .addr := by
  rw [uNext, if_neg h]

/-! ### The acceptance of a command -/

theorem acceptCommand_of_ok {s : State} (h : s.ph = .idle) (hc : s.cfgErr = false) (body : State → State) :
    acceptCommand s body = .next (body (edgeDefaults s)) := by
  simp [acceptCommand, h, hc]

theorem acceptCommand_of_cfgErr {s : State} (h : s.ph = .idle) (hc : s.cfgErr = true) (body : State → State) :
    acceptCommand s body = .next (raiseError (edgeDefaults s) .configError) := by
  simp [acceptCommand, h, hc]

theorem acceptCommand_of_busy {s : State} (h : s.ph ≠ .idle) (body : State → State) :
    acceptCommand s body = sequencerEdge s := by
  cases hp : s.ph <;> simp_all [acceptCommand]

/-- Every outcome of offering a command: the answer `CONFIG_ERROR`, the command's own body, or the edge of the scan
in progress. -/
theorem acceptCommand_cases (s : State) (body : State → State) :
    (s.ph = .idle ∧ s.cfgErr = true ∧ acceptCommand s body = .next (raiseError (edgeDefaults s) .configError)) ∨
      (s.ph = .idle ∧ s.cfgErr = false ∧ acceptCommand s body = .next (body (edgeDefaults s))) ∨
      (s.ph ≠ .idle ∧ acceptCommand s body = sequencerEdge s) := by
  by_cases h : s.ph = .idle
  · cases hc : s.cfgErr
    · exact .inr (.inl ⟨h, rfl, acceptCommand_of_ok h hc body⟩)
    · exact .inl ⟨h, rfl, acceptCommand_of_cfgErr h hc body⟩
  · exact .inr (.inr ⟨h, acceptCommand_of_busy h body⟩)

/-- Every command is an offer with some body (Machine/Board.lean, Mux.lean, Scan.lean). -/
theorem exec_eq_acceptCommand (i : Instr) (s : State) : ∃ body, exec i s = acceptCommand s body := by
  cases i <;> simp only [exec, execScan, execGetsq, execGetrow, execSeta, execRdo] <;> exact ⟨_, rfl⟩

/-! ### One step -/

/-- Every outcome of a step, by what the host drives and the phase (R161, R190). -/
theorem step_cases (s : State) :
    ((s.hostAt 0).rst = true ∧ step s = .next (resetEdge s)) ∨
      ((s.hostAt 0).rst = false ∧ s.ph = .idle ∧ (s.hostAt 0).cmdValid = true ∧
        step s = acceptWord (s.hostAt 0).cmd s) ∨
      ((s.hostAt 0).rst = false ∧ s.ph = .idle ∧ (s.hostAt 0).cmdValid = false ∧ step s = .next (edgeDefaults s)) ∨
      ((s.hostAt 0).rst = false ∧ s.ph ≠ .idle ∧ step s = sequencerEdge s) := by
  cases hr : (s.hostAt 0).rst
  · by_cases hp : s.ph = .idle
    · cases hv : (s.hostAt 0).cmdValid
      · refine .inr (.inr (.inl ⟨rfl, hp, rfl, ?_⟩))
        simp [step, clockEdge, hr, hv, sequencerEdge_of_idle hp]
      · refine .inr (.inl ⟨rfl, hp, rfl, ?_⟩)
        simp [step, clockEdge, hr, hv, (cmdReady_eq_true_iff s).2 hp]
    · refine .inr (.inr (.inr ⟨rfl, hp, ?_⟩))
      have : s.cmdReady = false := by simp [State.cmdReady, hp]
      simp [step, clockEdge, hr, this]
  · exact .inl ⟨rfl, by simp [step, clockEdge, hr]⟩

theorem acceptWord_of_decode {w : CommandWord} {i : Instr} (h : decode w = .ok i) (s : State) :
    acceptWord w s = exec i s := by
  simp [acceptWord, h]

theorem acceptWord_of_illegal {w : CommandWord} {e : DecodeError} (h : decode w = .error e) (s : State) :
    acceptWord w s = illegalCommandEdge s := by
  simp [acceptWord, h]

/-! ### Runs of edges -/

@[simp] theorem runEdges_zero (s : State) : runEdges 0 s = .next s := rfl

theorem runEdges_succ_of_step {s t : State} (h : step s = .next t) (n : Nat) : runEdges (n + 1) s = runEdges n t := by
  simp [runEdges, h]

/-- A run may be cut in two. -/
theorem runEdges_add {m : Nat} {s t : State} (h : runEdges m s = .next t) (n : Nat) :
    runEdges (m + n) s = runEdges n t := by
  induction m generalizing s with
  | zero => cases h; simp
  | succ m ih =>
    rw [Nat.succ_add]
    simp only [runEdges] at h ⊢
    split at h
    · exact ih h
    · cases h
    · cases h

end Sys2Proof.Machine
end

