-- ==== Sys2Proof/Laws/PerInstr.lean ====
section
/-! SUPPORT. Facts stated for every command, one lemma per constructor of Instr.

Family EncodedFields: the word of a command holds the opcode of its row, its operands as they stand in the fields
that R74 gives them, and zero in the fields it does not use (R86). -/

namespace Sys2Proof.Laws

open Sys2Proof

/-- What the three fields of the command's word hold, as unsigned integers (R74, R86). -/
def EncodedFields.Statement (i : Instr) : Prop :=
  i.wellFormed = true →
    match i with
    | .scan => (encode i).op = 0x1 ∧ (encode i).y.toNat = 0 ∧ (encode i).x.toNat = 0
    | .getsq x y => (encode i).op = 0x2 ∧ (encode i).y.toNat = y ∧ (encode i).x.toNat = x
    | .getrow r => (encode i).op = 0x3 ∧ (encode i).y.toNat = 0 ∧ (encode i).x.toNat = r
    | .seta a => (encode i).op = 0x4 ∧ (encode i).y.toNat = 0 ∧ (encode i).x.toNat = a
    | .rdo => (encode i).op = 0x5 ∧ (encode i).y.toNat = 0 ∧ (encode i).x.toNat = 0

theorem EncodedFields.scan : EncodedFields.Statement .scan := by
  intro _
  simp [encode, Instr.opcode, Instr.yField, Instr.xField]

theorem EncodedFields.getsq (x y : Nat) : EncodedFields.Statement (.getsq x y) := by
  intro h
  simp only [Instr.wellFormed, Bool.and_eq_true] at h
  simp only [encode, op_commandWord, y_commandWord, x_commandWord]
  exact ⟨rfl, toNat_ofNat_of_fits h.2, toNat_ofNat_of_fits h.1⟩

theorem EncodedFields.getrow (r : Nat) : EncodedFields.Statement (.getrow r) := by
  intro h
  simp only [encode, op_commandWord, y_commandWord, x_commandWord]
  exact ⟨rfl, rfl, toNat_ofNat_of_fits h⟩

theorem EncodedFields.seta (a : Nat) : EncodedFields.Statement (.seta a) := by
  intro h
  simp only [encode, op_commandWord, y_commandWord, x_commandWord]
  exact ⟨rfl, rfl, toNat_ofNat_of_fits h⟩

theorem EncodedFields.rdo : EncodedFields.Statement .rdo := by
  intro _
  simp [encode, Instr.opcode, Instr.yField, Instr.xField]

end Sys2Proof.Laws
end

