-- ==== Sys2Proof/Laws/Rom.lean ====
section
/-! SUPPORT. What the mapping table's checks say, what the four cell writes of a scan step do on a valid table, and
the packed view bit by bit. Later proofs cite these and do not unfold the loops. -/

namespace Sys2Proof.Machine

open Sys2Proof

/-! ### Indexes and channels -/

theorem mem_scanIndexes (i : Addr) : i ∈ scanIndexes := by revert i; decide

theorem mem_lines (j : Line) : j ∈ lines := by revert j; decide

theorem mem_channels (i : Addr) (j : Line) : (i, j) ∈ channels := by
  simp only [channels, List.mem_flatMap, List.mem_map]
  exact ⟨i, mem_scanIndexes i, j, mem_lines j, rfl⟩

theorem channels_nodup : channels.Nodup := by decide

/-! ### The two checks of R118 -/

theorem rangeOk_iff (m : MapTable) :
    rangeOk m = true ↔ ∀ (i : Addr) (k : Fin 8), romElement (romRead m i) k ≤ 7 := by
  simp only [rangeOk, List.all_eq_true, decide_eq_true_eq]
  exact ⟨fun h i k => h i (mem_scanIndexes i) k (List.mem_finRange k), fun h i _ k _ => h i k⟩

theorem injectiveOk_iff (m : MapTable) :
    injectiveOk m = true ↔
      ∀ (i i' : Addr) (j j' : Line), mapPair m i j = mapPair m i' j' → i = i' ∧ j = j' := by
  unfold injectiveOk
  rw [decide_eq_true_iff, mapPairs, List.nodup_map_iff_inj_on channels_nodup]
  constructor
  · intro h i i' j j' e
    simpa using h (i, j) (mem_channels i j) (i', j') (mem_channels i' j') e
  · rintro h ⟨i, j⟩ _ ⟨i', j'⟩ _ e
    obtain ⟨rfl, rfl⟩ := h i i' j j' e
    rfl

theorem rangeOk_of_validMap {m : MapTable} (h : validMap m = true) : rangeOk m = true := by
  simp only [validMap, Bool.and_eq_true] at h
  exact h.1

theorem injectiveOk_of_validMap {m : MapTable} (h : validMap m = true) : injectiveOk m = true := by
  simp only [validMap, Bool.and_eq_true] at h
  exact h.2

/-- The elements of a pair are two of the word's eight elements. -/
theorem mapPair_le {m : MapTable} (h : rangeOk m = true) (i : Addr) (j : Line) :
    (mapPair m i j).1 ≤ 7 ∧ (mapPair m i j).2 ≤ 7 := by
  have h1 := (rangeOk_iff m).1 h i ⟨2 * j, by omega⟩
  have h2 := (rangeOk_iff m).1 h i ⟨2 * j + 1, by omega⟩
  simp only [romElement] at h1 h2
  simp only [mapPair, romPair]
  rw [show 8 * j.val = 4 * (2 * j.val) by omega, show 4 * (2 * j.val) + 4 = 4 * (2 * j.val + 1) by omega]
  exact ⟨h1, h2⟩

/-! ### Pairs as cells -/

/-- A pair is the two coordinates of a cell exactly when the line names that cell. -/
theorem romPair_eq_iff (w : RomWord) (j : Line) (r c : Coord) :
    romPair w j = (BitVec.ofNat 4 r.val, BitVec.ofNat 4 c.val) ↔ romCell? w j = some (r, c) := by
  rw [romCell?_eq_some_iff, Prod.ext_iff, ← BitVec.toNat_inj, ← BitVec.toNat_inj]
  simp only [BitVec.toNat_ofNat]
  rw [Nat.mod_eq_of_lt (by omega), Nat.mod_eq_of_lt (by omega)]

/-- In a table in range every channel names a cell. -/
theorem exists_mapPair_eq {m : MapTable} (h : rangeOk m = true) (i : Addr) (j : Line) :
    ∃ r c : Coord, mapPair m i j = (BitVec.ofNat 4 r.val, BitVec.ofNat 4 c.val) := by
  have le7 : ∀ v : BitVec 4, v ≤ 7 → v.toNat < 8 := by decide
  have hle := mapPair_le h i j
  refine ⟨⟨(mapPair m i j).1.toNat, le7 _ hle.1⟩, ⟨(mapPair m i j).2.toNat, le7 _ hle.2⟩, ?_⟩
  simp

/-- The four writes of a scan step on a valid table: each named cell holds its line's decoded bit, every other cell
what it held (R130). -/
theorem writeLines_of_validMap {m : MapTable} (h : validMap m = true) (i : Addr) (smp : Sample) (b : Board) :
    ∃ b', writeLines (romRead m i) smp lines b = some b' ∧
      (∀ (j : Line) (r c : Coord), mapPair m i j = (BitVec.ofNat 4 r.val, BitVec.ofNat 4 c.val) →
        cellRead b' r c = uDecode smp j) ∧
      (∀ r c : Coord, (∀ j : Line, mapPair m i j ≠ (BitVec.ofNat 4 r.val, BitVec.ofNat 4 c.val)) →
        cellRead b' r c = cellRead b r c) := by
  have hcell : ∀ j : Line, ∃ r c : Coord, romCell? (romRead m i) j = some (r, c) := fun j => by
    obtain ⟨r, c, e⟩ := exists_mapPair_eq (rangeOk_of_validMap h) i j
    exact ⟨r, c, (romPair_eq_iff _ _ _ _).1 e⟩
  obtain ⟨b', hb⟩ := Option.isSome_iff_exists.1 ((writeLines_isSome_iff (romRead m i) smp lines b).2 fun j _ => by
    obtain ⟨r, c, e⟩ := hcell j
    simp [e])
  refine ⟨b', hb, fun j r c hj => ?_, fun r c hne => ?_⟩
  · refine writeLines_named hb ?_ (mem_lines j) ((romPair_eq_iff _ _ _ _).1 hj)
    rw [List.nodup_map_iff_inj_on (by decide)]
    intro x _ y _ e
    obtain ⟨r', c', ey⟩ := hcell y
    have hx := (romPair_eq_iff _ _ _ _).2 (e.trans ey)
    have hy := (romPair_eq_iff _ _ _ _).2 ey
    exact ((injectiveOk_iff m).1 (injectiveOk_of_validMap h) i i x y (hx.trans hy.symm)).2
  · exact writeLines_other hb fun j _ he => hne j ((romPair_eq_iff _ _ _ _).2 he)

/-! ### The packed view -/

/-- Bit `8r + c` of the packed view is the cell in row `r` and column `c` (R22). -/
theorem packBoard_getLsbD (b : Board) (r c : Coord) : (packBoard b).getLsbD (8 * r.val + c.val) = cellRead b r c := by
  obtain ⟨c, hc⟩ := c
  change (b[7] ++ b[6] ++ b[5] ++ b[4] ++ b[3] ++ b[2] ++ b[1] ++ b[0] :
    BitVec (8 + 8 + 8 + 8 + 8 + 8 + 8 + 8)).getLsbD (8 * r.val + c) = _
  simp only [BitVec.getLsbD_append, cellRead]
  obtain ⟨r, hr⟩ := r
  interval_cases r
  · rw [if_pos (by simp; omega)]; simp
  · rw [if_neg (by simp), if_pos (by simp; omega)]; simp
  · iterate 2 rw [if_neg (by simp; omega)]
    rw [if_pos (by simp; omega)]; simp [show 16 + c - 8 - 8 = c by omega]
  · iterate 3 rw [if_neg (by simp; omega)]
    rw [if_pos (by simp; omega)]; simp [show 24 + c - 8 - 8 - 8 = c by omega]
  · iterate 4 rw [if_neg (by simp; omega)]
    rw [if_pos (by simp; omega)]; simp [show 32 + c - 8 - 8 - 8 - 8 = c by omega]
  · iterate 5 rw [if_neg (by simp; omega)]
    rw [if_pos (by simp; omega)]; simp [show 40 + c - 8 - 8 - 8 - 8 - 8 = c by omega]
  · iterate 6 rw [if_neg (by simp; omega)]
    rw [if_pos (by simp; omega)]; simp [show 48 + c - 8 - 8 - 8 - 8 - 8 - 8 = c by omega]
  · iterate 7 rw [if_neg (by simp; omega)]
    simp [show 56 + c - 8 - 8 - 8 - 8 - 8 - 8 - 8 = c by omega]

/-- Two boards with the same cells are the same board. -/
theorem board_eq_of_cells {b b' : Board} (h : ∀ r c : Coord, cellRead b r c = cellRead b' r c) : b = b' := by
  apply Vector.ext
  intro r hr
  apply BitVec.eq_of_getLsbD_eq
  intro c hc
  exact h ⟨r, hr⟩ ⟨c, hc⟩

/-! ### The inputs one edge later -/

theorem hostAt_of_tail {s t : State} (h : t.hostIn = s.hostIn.tail) (k : Nat) : t.hostAt k = s.hostAt (k + 1) := by
  simp [State.hostAt, h]

theorem envAt_of_tail {s t : State} (h : t.env = s.env.tail) (he : t.edge = s.edge + 1) (k : Nat) (a : Addr) :
    t.envAt k a = s.envAt (k + 1) a := by
  simp [State.envAt, h, he, show s.edge + 1 + 1 + k = s.edge + 1 + (k + 1) by omega]

end Sys2Proof.Machine
end

