-- ==== Sys2Proof/Tests/Slice0.lean ====
section
/-! SUPPORT. Tests, each about one edge of a small state or about one word, with results taken from the spec's worked
examples (95_test_vectors.md and the rules' own corner cases); and, for every statement of Obligations.lean that has
hypotheses, witnesses that meet them, one per clause. -/

namespace Sys2Proof.Tests

open Sys2Proof Sys2Proof.Machine

/-! ### Helpers -/

/-- The outcome is a next state with the property `p`. -/
def nextHas (r : Result) (p : State → Bool) : Bool :=
  match r with
  | .next t => p t
  | .fault _ | .refused _ => false

/-- The outcome is this fault. -/
def faultsWith (r : Result) (f : Fault) : Bool :=
  match r with
  | .fault g => g == f
  | .next _ | .refused _ => false

theorem exists_next {r : Result} {p : State → Bool} (h : nextHas r p = true) : ∃ t, r = .next t ∧ p t = true := by
  cases r with
  | next t => exact ⟨t, rfl, h⟩
  | fault f => cases h
  | refused f => cases h

/-- A next state with some property has every weaker one. -/
theorem exists_next_of {r : Result} {p q : State → Bool} (h : nextHas r p = true)
    (hpq : ∀ t, p t = true → q t = true) : ∃ t, r = .next t ∧ q t = true := by
  obtain ⟨t, e, ht⟩ := exists_next h
  exact ⟨t, e, hpq t ht⟩

theorem eq_fault {r : Result} {f : Fault} (h : faultsWith r f = true) : r = .fault f := by
  cases r with
  | next t => cases h
  | fault g => exact congrArg _ (eq_of_beq h)
  | refused f => cases h

/-- The board of V12: what a scan of the stub `stub(a) = a` gives under `MAP_LINEAR`. -/
def boardV12 : Board := #v[0xEF, 0xDC, 0x89, 0xBA, 0x23, 0x10, 0x45, 0x76]

/-- The stub of V12. -/
def stubV12 : Stub := #v[0, 1, 2, 3, 4, 5, 6, 7, 8, 9, 10, 11, 12, 13, 14, 15]

/-- A settled idle state with the board of V12, as after a scan: `I = 0`, `SEL = 8`, `SMP = 8`, `AGE = S = 1`. -/
def idleState : State := { State.reset with brd := boardV12, sel := 8, smp := 8, age := 1 }

/-- The same, with the host offering the word `w` at the next edge. -/
def offered (w : CommandWord) : State := { idleState with hostIn := [HostEdge.offer w] }

/-- The instance with the source's own table, which is not valid (P5), idle, with the host offering `w`. -/
def invalidOffered (w : CommandWord) : State :=
  { State.resetOf { map := mapSourceIdentity, settleCycles := 2 } with hostIn := [HostEdge.offer w] }

/-- V5's `RDO`: settled, `SEL = 5`, `stub(5) = 6`. -/
def rdoOffered : State := { offered 0x50000000000000000 with sel := 5, env := [stubV12.set 5 6] }

/-- Step 2 of the scan of V12, about to write. -/
def writState : State :=
  { State.reset with brd := #v[0xEF, 0, 0, 0, 0, 0, 0, 0], i := 2, ph := .writ, sel := 3, smp := 3, age := 1 }

/-- Step 15, about to write. -/
def lastState : State := { writState with i := 15, sel := 8, smp := 8 }

/-- Step 3, about to drive its address. -/
def addrState : State := { State.reset with i := 3, ph := .addr, sel := 3, smp := 3, age := 1 }

/-- Step 2, waiting, with the settle count at `n`. -/
def waitState (n : Nat) : State := { State.reset with i := 2, ph := .wait, sel := 3, age := n, env := [stubV12] }

/-- A state, not reached by any run, whose ROM word holds row 8: the word 15 of V8. -/
def badRomState : State :=
  { lastState with params := { map := mapLinear.set 15 0x78675747, settleCycles := 1 } }

/-- The reset state with the host about to offer one `SCAN` and nothing else. -/
def scanOffered : State := { State.reset with hostIn := [HostEdge.offer 0x10000000000000000] }

/-- `n` edges with no reset, one command offered first. -/
theorem noResetFor_of_single {s : State} {w : CommandWord} (h : s.hostIn = [HostEdge.offer w]) (n : Nat) :
    s.NoResetFor n := by
  intro k _
  cases k <;> simp [State.hostAt, h, HostEdge.offer, HostEdge.quiet]

theorem noResetFor_of_nil {s : State} (h : s.hostIn = []) (n : Nat) : s.NoResetFor n := by
  intro k _
  simp [State.hostAt, h, HostEdge.quiet]

theorem quietFor_of_nil {s : State} (h : s.hostIn = []) (n : Nat) : s.QuietFor n := by
  intro k _
  simp [State.hostAt, h, HostEdge.quiet]

theorem accepts_offered (w : CommandWord) : (offered w).Accepts w := ⟨rfl, rfl, rfl, rfl⟩

theorem accepts_invalidOffered (w : CommandWord) : (invalidOffered w).Accepts w := ⟨rfl, rfl, rfl, rfl⟩

theorem validMap_mapLinear : validMap mapLinear = true := by decide +kernel

theorem cfgErr_offered (w : CommandWord) : (offered w).cfgErr = false :=
  (cfgErr_eq_false_iff _).2 validMap_mapLinear

theorem cfgErr_invalidOffered (w : CommandWord) : (invalidOffered w).cfgErr = true := by
  change (!validMap mapSourceIdentity) = true
  decide

theorem cfgErr_reset : State.reset.cfgErr = false := cfgErr_offered 0

theorem scanOffered_startsScan : scanOffered.StartsScan :=
  ⟨0x10000000000000000, ⟨rfl, rfl, rfl, rfl⟩, rfl, cfgErr_offered 0⟩

/-! ### Well-formedness: a term for each check, refused (R86) -/

theorem test_wellFormed_limits :
    (Instr.getsq 4294967295 4294967295).wellFormed = true ∧ (Instr.getrow 4294967295).wellFormed = true ∧
      (Instr.seta 4294967295).wellFormed = true ∧ Instr.scan.wellFormed = true ∧ Instr.rdo.wellFormed = true := by
  decide

theorem test_wellFormed_refuses_getsq_x : (Instr.getsq 4294967296 0).wellFormed = false := by decide

theorem test_wellFormed_refuses_getsq_y : (Instr.getsq 0 4294967296).wellFormed = false := by decide

theorem test_wellFormed_refuses_getrow : (Instr.getrow 4294967296).wellFormed = false := by decide

theorem test_wellFormed_refuses_seta : (Instr.seta 4294967296).wellFormed = false := by decide

/-! ### Decoding: words of the spec, field by field (R71, R74; 95_test_vectors.md) -/

/-- `SCAN` is `0x10000000000000000`: `OP = 0001`, `Y` and `X` zero. -/
theorem test_decode_scan : decode (0b0001#4 ++ 0#32 ++ 0#32) = .ok .scan := by decide

/-- `GETSQ 4, 2` is `0x20000000200000004`: `OP = 0010`, `Y = 2`, `X = 4`. -/
theorem test_decode_getsq : decode 0x20000000200000004 = .ok (.getsq 4 2) := by decide

/-- `OP = 0011`, `X = 10000000...01` binary: a row operand is taken whole. -/
theorem test_decode_getrow : decode (0b0011#4 ++ 0xDEADBEEF#32 ++ 0x80000001#32) = .ok (.getrow 2147483649) := by
  decide

/-- `SETA 16` is `0x40000000000000010`. -/
theorem test_decode_seta : decode 0x40000000000000010 = .ok (.seta 16) := by decide

/-- `RDO` with junk operands (V31). -/
theorem test_decode_rdo : decode 0x5FFFFFFFFFFFFFFFF = .ok .rdo := by decide

/-- Every opcode without a command is rejected by name (R75, V30). -/
theorem test_decode_illegal :
    [0x0, 0x6, 0x7, 0x8, 0x9, 0xA, 0xB, 0xC, 0xD, 0xE, 0xF].map (fun op => decode (commandWord op 3 3)) =
      [0x0, 0x6, 0x7, 0x8, 0x9, 0xA, 0xB, 0xC, 0xD, 0xE, 0xF].map (fun op => .error (.illegalOpcode op)) := by
  decide

/-- The words of P1 and P2, from their commands (R86). -/
theorem test_encode :
    encode (.getsq 4 7) = 0x20000000700000004 ∧ encode (.getsq 4294967295 0) = 0x200000000FFFFFFFF ∧
      encode (.getrow 7) = 0x30000000000000007 ∧ encode (.seta 9) = 0x40000000000000009 ∧
      encode .rdo = 0x50000000000000000 ∧ encode .scan = 0x10000000000000000 := by decide

/-- A word the table gives 68 bits, in whole bytes 72. -/
theorem test_decodeTableWord : decodeTableWord 72 0x20000000200000004 = some (.getsq 4 2) ∧
    decodeTableWord 72 0x60000000300000003 = none := by decide

/-! ### One edge per command (95_test_vectors.md, part 2) -/

/-- V42: after the accepting edge `PH = ADDR`, `I = 0`, no response yet. -/
theorem test_scan_starts : nextHas (step scanOffered)
    (fun t => t.ph == .addr && t.i == 0 && t.age == 1 && !t.rspValid && t.busy) = true := by decide +kernel

/-- P5: on an invalid table `SCAN` is answered `(2, 0x00)` at once and no scan starts. -/
theorem test_scan_invalid_table : nextHas (step (invalidOffered 0x10000000000000000))
    (fun t => t.ph == .idle && t.rspValid && t.responseWord == 0x200) = true := by decide

/-- V20: `GETSQ 4, 2` reads row 5, column 4: 1. A flip of the wrong operand would read 0. -/
theorem test_getsq : nextHas (step (offered 0x20000000200000004))
    (fun t => t.rspValid && t.rspStatus == .ok && t.rspData == 1 && t.brd == boardV12 && t.sel == 8) = true := by
  decide +kernel

/-- V25: `GETSQ 0x100, 0` is out of bounds although its low three bits are zero. -/
theorem test_getsq_bounds : nextHas (step (offered 0x20000000000000100))
    (fun t => t.rspValid && t.rspStatus == .boundsError && t.rspData == 0) = true := by decide +kernel

/-- V21: `GETROW 2` answers `(0, 0x89)`, with no flip. -/
theorem test_getrow : nextHas (step (offered 0x30000000000000002))
    (fun t => t.rspValid && t.responseWord == 0x089) = true := by decide +kernel

/-- V26: `GETROW 8` answers `(1, 0x00)`. -/
theorem test_getrow_bounds : nextHas (step (offered 0x30000000000000008))
    (fun t => t.rspValid && t.rspStatus == .boundsError && t.rspData == 0 && t.brd == boardV12) = true := by decide +kernel

/-- V5: `SETA 15` is legal and restarts the count. -/
theorem test_seta : nextHas (step (offered 0x4000000000000000F))
    (fun t => t.sel == 15 && t.age == 0 && t.responseWord == 0x000 && t.rspValid && t.ph == .idle) = true := by decide +kernel

/-- V5: `SETA 16` leaves `SEL` alone. -/
theorem test_seta_bounds : nextHas (step (offered 0x40000000000000010))
    (fun t => t.sel == 8 && t.age == 1 && t.rspValid && t.rspStatus == .boundsError) = true := by decide +kernel

/-- V5: `RDO` with `AGE = S`, `SEL = 5` and `stub(5) = 6`. -/
theorem test_rdo_settled : nextHas (step rdoOffered)
      (fun t => t.smp == 6 && t.responseWord == 0x006 && t.rspValid && t.sel == 5) = true := by decide +kernel

/-- V5: `RDO` at the first edge after reset is unsettled: it runs, and the answer is the drawn value, whatever it is. -/
theorem test_rdo_unsettled :
    nextHas (step { State.reset with hostIn := [HostEdge.offer 0x50000000000000000] })
      (fun t => t.rspValid && t.rspStatus == .ok && t.smp == Config.freeSample 2) = true := by
  simp [step, clockEdge, State.hostAt, HostEdge.offer, State.reset, State.resetOf, State.cmdReady, acceptWord, exec,
    execRdo, decode, CommandWord.op, acceptCommand, State.cfgErr, referenceParams,
    validMap_mapLinear, nextHas, respond, uRdo, edgeDefaults, State.senseRead,
    State.settled]

/-- V30: `.word 0x60000000300000003` answers `(3, 0x00)`. -/
theorem test_illegal_word : nextHas (step (offered 0x60000000300000003))
    (fun t => t.rspValid && t.rspStatus == .illegalCommand && t.rspData == 0 && t.brd == boardV12) = true := by decide +kernel

/-- V32: under `CFG_ERR` an illegal word answers `(2, 0x00)`. -/
theorem test_illegal_word_invalid_table : nextHas (step (invalidOffered 0x70000000000000000))
    (fun t => t.rspValid && t.responseWord == 0x200) = true := by decide

/-! ### The sequencer's edges (V12, V42) -/

/-- V12, entering step 3: the address is 2, the Gray code of 3. -/
theorem test_addr_edge : nextHas (step addrState) (fun t => t.sel == 2 && t.age == 0 && t.ph == .wait) = true := by
  decide

/-- V42: with `AGE` read 0 only the count moves. -/
theorem test_wait_edge_counts : nextHas (step (waitState 0))
    (fun t => t.ph == .wait && t.age == 1 && t.smp == 0) = true := by decide

/-- V12 step 2: with `AGE` read `S` the sample of address 3 is taken. -/
theorem test_wait_edge_samples : nextHas (step (waitState 1)) (fun t => t.ph == .writ && t.smp == 3) = true := by
  decide

/-- V12 step 2: `EF 0C 00 ...` after the `WRIT` edge. The ROM is read at the index 2, not at the address 3 (C1). -/
theorem test_writ_edge : nextHas (step writState)
    (fun t => t.brd == #v[0xEF, 0x0C, 0, 0, 0, 0, 0, 0] && t.i == 3 && t.ph == .addr && !t.rspValid) = true := by
  decide

/-- V3: from `I = 15` to `I = 0`, phase `IDLE`, response `(0, 0x00)`. -/
theorem test_writ_edge_last : nextHas (step lastState)
    (fun t => t.i == 0 && t.ph == .idle && t.rspValid && t.responseWord == 0) = true := by decide

/-- V14: a write clears as well as sets. -/
theorem test_writ_edge_clears :
    nextHas (step { writState with brd := Vector.replicate 8 0xFF, smp := 0xF })
      (fun t => t.brd == #v[0xFF, 0xF0, 0xFF, 0xFF, 0xFF, 0xFF, 0xFF, 0xFF]) = true := by decide

/-- R130: an element above 7 faults and is not sliced. -/
theorem test_bad_rom_faults : faultsWith (step badRomState) (.romElementAboveSeven 15) = true := by decide

/-- V43: reset in the middle of a scan, with a command offered. -/
theorem test_reset_edge :
    nextHas (step { writState with hostIn := [{ rst := true, cmdValid := true, cmd := 0x10000000000000000 }] })
      (fun t => t.brd == Vector.replicate 8 0 && t.ph == .idle && t.sel == 0 && t.smp == 0 && t.i == 0 && t.age == 0) =
      true := by decide

/-- V33: a quiet edge after a response: `RSP_VALID` falls, the rest is held. -/
theorem test_idle_edge :
    nextHas (step { idleState with rspValid := true, rspData := 0xEF })
      (fun t => !t.rspValid && t.rspData == 0xEF && t.ph == .idle) = true := by decide

/-! ### The Gray function, the table, the board port -/

/-- V1, the sixteen addresses. -/
theorem test_gray : scanIndexes.map gray = [0, 1, 3, 2, 6, 7, 5, 4, 12, 13, 15, 14, 10, 11, 9, 8] := by decide

/-- V2, the sixteen indexes. -/
theorem test_grayInv : scanIndexes.map grayInv = [0, 1, 3, 2, 7, 6, 4, 5, 15, 14, 12, 13, 8, 9, 11, 10] := by decide

/-- V6. -/
theorem test_mapPair : mapPair mapLinear 2 3 = (1, 3) ∧ mapPair mapLinear 9 0 = (4, 4) ∧
    mapPair mapTranspose 2 3 = (3, 1) ∧ mapPair mapTranspose 3 2 = (6, 1) ∧ mapPair mapTranspose 8 3 = (3, 4) := by
  decide

/-- V7. -/
theorem test_validMap : validMap mapTranspose = true ∧
    validMap ((mapLinear.set 3 0x74645444).set 9 0x71615141) = true := by decide +kernel

/-- V8, by range. -/
theorem test_validMap_range : validMap (mapLinear.set 15 0x87675747) = false ∧
    validMap (mapLinear.set 15 0x78675747) = false ∧ validMap mapSourceIdentity = false := by decide

/-- V9, by injectivity. -/
theorem test_validMap_injective : validMap (mapLinear.set 0 0x30201010) = false ∧
    validMap (mapLinear.set 7 0x33231303) = false ∧ validMap (Vector.replicate 16 0) = false := by decide +kernel

/-- R119 on V7 and V9. -/
theorem test_validBySeen : seenScan mapTranspose = (BitVec.allOnes 64, true) ∧
    validBySeen (mapLinear.set 7 0x33231303) = false := by decide +kernel

/-- V12, the port. -/
theorem test_board_port : idleState.outputs.board = 0x76451023BA89DCEF := by decide

/-- R155, the codes on the port. -/
theorem test_status_port : [Status.ok, .boundsError, .configError, .illegalCommand].map (fun st =>
    ({ State.reset with rspStatus := st } : State).responseWord) = [0x000, 0x100, 0x200, 0x300] := by decide

/-! ### The listing syntax (R86, R87) -/

/-- A line with a comment, a hexadecimal operand and blanks. -/
theorem test_parse_line :
    parseLine ['G', 'E', 'T', 'S', 'Q', ' ', '4', ',', ' ', '0', 'x', '1', 'F', ' ', ';', ' ', 'c'] =
      some [.command (.getsq 4 31)] := by decide

/-- `GETROW 4294967296` parses as text and is rejected by the assembler, never truncated. -/
theorem test_assembler_rejects : assembleLine referenceParams (.command (.getrow 4294967296)) = none := by decide

/-- `.wait SETTLE_CYCLES`. -/
theorem test_assemble_wait : assembleLine referenceParams .waitSettle = some [HostEdge.quiet] := by decide

/-! ### How a program comes to run (notes/assumptions/4.md) -/

/-- From reset, with the word of `GETROW 2` placed, the next step runs it. -/
theorem test_withFetchWord :
    nextHas (step (idleState.withFetchWord 72 0x30000000000000002)) (fun t => t.rspData == 0x89) = true := by
  decide +kernel

/-! ### Witnesses: for each statement with hypotheses, states and operands that meet them all -/

theorem witness_DecodeOfEncodeIsTheCommand : (Instr.getsq 4294967295 4294967295).wellFormed = true := by decide

/-- For both directions and every branch: a `SCAN` and an `RDO` with and without junk, the other three with junk in the
field they ignore, `GETSQ` with none to ignore; the second clause's hypothesis is the first three. -/
theorem witness_OnlyOpcodeAndUsedFieldsMatter :
    (∃ i, decode 0x10000000000000000 = .ok i ∧ decode 0x19ABCDEF012345678 = .ok i) ∧
      (∃ i, decode 0x50000000000000000 = .ok i ∧ decode 0x5FFFFFFFFFFFFFFFF = .ok i) ∧
      (∃ i, decode 0x30000000000000001 = .ok i ∧ decode 0x3DEADBEEF00000001 = .ok i) ∧
      (∃ i, decode 0x4000000000000000F = .ok i ∧ decode 0x4FFFFFFFF0000000F = .ok i) ∧
      (∃ i, decode 0x20000000700000004 = .ok i ∧ decode 0x20000000700000004 = .ok i) :=
  ⟨⟨.scan, by decide⟩, ⟨.rdo, by decide⟩, ⟨.getrow 1, by decide⟩, ⟨.seta 15, by decide⟩, ⟨.getsq 4 7, by decide⟩⟩

/-- One word for each clause; the last clause's hypothesis is any of the first five. -/
theorem witness_OpcodeMapIsComplete :
    CommandWord.op 0x19ABCDEF012345678 = 0x1 ∧ CommandWord.op 0x20000000700000004 = 0x2 ∧
      CommandWord.op 0x3DEADBEEF00000001 = 0x3 ∧ CommandWord.op 0x400000000FFFFFFFF = 0x4 ∧
      CommandWord.op 0x5FFFFFFFFFFFFFFFF = 0x5 ∧ CommandWord.op 0x0FFFFFFFFFFFFFFFF = 0x0 ∧
      0x6 ≤ CommandWord.op 0x60000000000000000 ∧ 0x6 ≤ CommandWord.op 0xFFFFFFFFFFFFFFFFF ∧
      decode 0x400000000FFFFFFFF = .ok (.seta 0xFFFFFFFF) := by decide

theorem witness_StepRunsTheDecodedCommand :
    (offered 0x20000000200000004).Accepts 0x20000000200000004 ∧ decode 0x20000000200000004 = .ok (.getsq 4 2) :=
  ⟨accepts_offered _, by decide⟩

theorem witness_CommandsWaitWhileAScanRuns :
    addrState.ph ≠ .idle ∧ (waitState 1).ph ≠ .idle ∧ writState.ph ≠ .idle ∧
      (HostEdge.offer 0x10000000000000000).rst = false := by decide

theorem witness_IllegalWordsAreAnswered :
    ((offered 0x00000000000000000).Accepts 0x00000000000000000 ∧ CommandWord.op 0x00000000000000000 = 0x0) ∧
      ((offered 0x60000000300000003).Accepts 0x60000000300000003 ∧ 0x6 ≤ CommandWord.op 0x60000000300000003) ∧
      ((invalidOffered 0xFFFFFFFFFFFFFFFFF).Accepts 0xFFFFFFFFFFFFFFFFF ∧ 0x6 ≤ CommandWord.op 0xFFFFFFFFFFFFFFFFF) :=
  ⟨⟨accepts_offered _, by decide⟩, ⟨accepts_offered _, by decide⟩, ⟨accepts_invalidOffered _, by decide⟩⟩

/-- An illegal word and a `SCAN`; the idle state of the second clause; a step; the run of no edge and of one. -/
theorem witness_InvalidTableRefusesEverything :
    ((invalidOffered 0x70000000000000000).Accepts 0x70000000000000000 ∧
      (invalidOffered 0x70000000000000000).cfgErr = true) ∧
      ((invalidOffered 0x10000000000000000).Accepts 0x10000000000000000 ∧
        (invalidOffered 0x10000000000000000).cfgErr = true ∧ (invalidOffered 0x10000000000000000).ph = .idle) ∧
      (∃ t, step (invalidOffered 0x10000000000000000) = .next t ∧ t.rspValid = true) ∧
      (validMap mapSourceIdentity = false ∧
        (∃ t, runEdges 1 { State.resetOf { map := mapSourceIdentity, settleCycles := 2 } with
          hostIn := [HostEdge.offer 0x10000000000000000], env := [] } = .next t ∧ t.rspValid = true)) :=
  ⟨⟨accepts_invalidOffered _, cfgErr_invalidOffered _⟩, ⟨accepts_invalidOffered _, cfgErr_invalidOffered _, rfl⟩,
    exists_next (by decide), by decide, exists_next (by decide)⟩

/-- Clauses one to three at the first operand out of bounds and at the last, in either place or both; clause four at
such a step. -/
theorem witness_BoundsErrorCauses :
    (idleState.ph = .idle ∧ idleState.cfgErr = false) ∧ (7 < 8 ∨ 7 < 0) ∧ (7 < 0 ∨ 7 < 8) ∧
      (7 < 4294967295 ∨ 7 < 4294967295) ∧ 15 < 16 ∧ 15 < 4294967295 ∧
      (∃ t, step (offered 0x20000000000000100) = .next t ∧ (t.rspValid && t.rspStatus == .boundsError) = true) ∧
      (∃ t, step (offered 0x30000000000000008) = .next t ∧ (t.rspValid && t.rspStatus == .boundsError) = true) ∧
      (∃ t, step (offered 0x40000000000000010) = .next t ∧ (t.rspValid && t.rspStatus == .boundsError) = true) :=
  ⟨⟨rfl, cfgErr_offered 0⟩, by decide, by decide, by decide, by decide, by decide,
    exists_next_of test_getsq_bounds (by simp_all), exists_next_of test_getrow_bounds (by simp_all),
    exists_next_of test_seta_bounds (by simp_all)⟩

/-- One accepted word for each branch of the chain, each with its step (that the steps answer is also shown by the
tests above); reset with a command offered. -/
theorem witness_ErrorPriority :
    ((invalidOffered 0x20000000000000008).Accepts 0x20000000000000008 ∧
      ∃ t, step (invalidOffered 0x20000000000000008) = .next t ∧ (t.rspStatus == .configError) = true) ∧
      ((offered 0x60000000300000003).Accepts 0x60000000300000003 ∧
        ∃ t, step (offered 0x60000000300000003) = .next t ∧ (t.rspStatus == .illegalCommand) = true) ∧
      ((offered 0x20000000000000100).Accepts 0x20000000000000100 ∧
        ∃ t, step (offered 0x20000000000000100) = .next t ∧ (t.rspStatus == .boundsError) = true) ∧
      ((offered 0x20000000200000004).Accepts 0x20000000200000004 ∧
        ∃ t, step (offered 0x20000000200000004) = .next t ∧ (t.rspStatus == .ok) = true) ∧
      (scanOffered.Accepts 0x10000000000000000 ∧
        ∃ t, step scanOffered = .next t ∧ (!t.rspValid) = true) ∧
      (({ idleState with hostIn := [HostEdge.reset] } : State).hostAt 0).rst = true :=
  ⟨⟨accepts_invalidOffered _, exists_next (by decide)⟩,
    ⟨accepts_offered _, exists_next_of test_illegal_word (by simp_all)⟩,
    ⟨accepts_offered _, exists_next_of test_getsq_bounds (by simp_all)⟩,
    ⟨accepts_offered _, exists_next_of test_getsq (by simp_all)⟩,
    ⟨⟨rfl, rfl, rfl, rfl⟩, exists_next_of test_scan_starts (by simp_all)⟩, rfl⟩

theorem witness_ErrorsArePrecise :
    (offered 0x20000000000000100).Accepts 0x20000000000000100 ∧
      ∃ t, step (offered 0x20000000000000100) = .next t ∧ (t.rspValid && t.rspStatus != .ok) = true :=
  ⟨accepts_offered _, exists_next_of test_getsq_bounds (by simp_all +decide)⟩

/-- A step that gives a response, one that gives none, a reset, and one that faults. -/
theorem witness_ResponseRegistersAreNeverReadBack :
    (∃ t, step (offered 0x30000000000000002) = .next t ∧ t.rspValid = true) ∧
      (∃ t, step addrState = .next t ∧ (!t.rspValid) = true) ∧
      (∃ t, step { addrState with hostIn := [HostEdge.reset] } = .next t ∧ (!t.rspValid) = true) ∧
      step badRomState = .fault (.romElementAboveSeven 15) :=
  ⟨exists_next_of test_getrow (by simp_all), exists_next (by decide), exists_next (by decide),
    eq_fault (by decide)⟩

/-- The hypotheses of `GetsqAnswersTheStoredCell`, `GetrowAnswersTheStoredRow`, `SetaWritesTheSelectRegister` and
`ScanStartsTheSequencer`, which are the same. -/
theorem witness_idle_on_a_valid_table : idleState.ph = .idle ∧ idleState.cfgErr = false := ⟨rfl, cfgErr_offered 0⟩

/-- Three states of one board: idle, idle with another sample and response, and one in the middle of a scan. -/
theorem witness_ViewsOfACellAgree :
    let u : State := { idleState with smp := 5, rspStatus := .boundsError }
    let v : State := { addrState with brd := boardV12 }
    idleState.ph = .idle ∧ idleState.cfgErr = false ∧ u.ph = .idle ∧ u.cfgErr = false ∧ u.brd = idleState.brd ∧
      v.brd = idleState.brd ∧ v.busy = true :=
  ⟨rfl, cfgErr_offered 0, rfl, cfgErr_offered 0, rfl, rfl, rfl⟩

/-- Both clauses of the sample: settled after a scan, unsettled right after reset. -/
theorem witness_RdoAnswersTheSample :
    (idleState.ph = .idle ∧ idleState.cfgErr = false ∧ idleState.age = idleState.params.settleCycles) ∧
      (State.reset.ph = .idle ∧ State.reset.cfgErr = false ∧ State.reset.age < State.reset.params.settleCycles) :=
  ⟨⟨rfl, cfgErr_offered 0, rfl⟩, ⟨rfl, cfgErr_offered 0, by decide⟩⟩

/-- `SETA 15`, then `n` idle edges: `n = S = 1` is enough and `n = 0` is not. -/
theorem witness_RdoIsSettledAfterEnoughIdleEdges :
    ∃ t, idleState.ph = .idle ∧ idleState.cfgErr = false ∧ exec (.seta (15 : Addr).toNat) idleState = .next t ∧
      t.QuietFor 1 ∧ idleState.params.settleCycles ≤ 1 ∧ t.QuietFor 0 ∧ 0 < idleState.params.settleCycles := by
  obtain ⟨t, e, h⟩ := exists_next (r := exec (.seta (15 : Addr).toNat) idleState) (p := fun t => t.hostIn == [])
    (by decide +kernel)
  have hn : t.hostIn = [] := eq_of_beq h
  exact ⟨t, rfl, cfgErr_offered 0, e, quietFor_of_nil hn 1, by decide, quietFor_of_nil hn 0, by decide⟩

theorem witness_IdleEdgesOnlyCount :
    State.reset.ph = .idle ∧ State.reset.age ≤ State.reset.params.settleCycles ∧ State.reset.QuietFor 2 :=
  ⟨rfl, by decide, quietFor_of_nil rfl 2⟩

theorem witness_AddrEdgeDrivesTheGrayAddress : addrState.ph = .addr ∧ (addrState.hostAt 0).rst = false := by decide

/-- Both branches: the count below `S`, and at `S`. -/
theorem witness_WaitEdgeCountsThenSamples :
    ((waitState 0).ph = .wait ∧ ((waitState 0).hostAt 0).rst = false ∧
      (waitState 0).age ≠ (waitState 0).params.settleCycles) ∧
      ((waitState 1).ph = .wait ∧ ((waitState 1).hostAt 0).rst = false ∧
        (waitState 1).age = (waitState 1).params.settleCycles) := by decide

/-- Both branches: the last step, and another. -/
theorem witness_WritEdgeAdvancesOrEnds :
    (lastState.ph = .writ ∧ lastState.cfgErr = false ∧ (lastState.hostAt 0).rst = false ∧ lastState.i = 15) ∧
      (writState.ph = .writ ∧ writState.cfgErr = false ∧ (writState.hostAt 0).rst = false ∧ writState.i ≠ 15) :=
  ⟨⟨rfl, cfgErr_offered 0, rfl, rfl⟩, ⟨rfl, cfgErr_offered 0, rfl, by decide⟩⟩

/-- A cell the step's word names, line 3 at `(1, 3)`, and one it does not name, `(0, 0)` (V6). -/
theorem witness_WritEdgeWritesFourDecodedCells :
    (writState.ph = .writ ∧ writState.cfgErr = false ∧ (writState.hostAt 0).rst = false) ∧
      mapPair writState.params.map writState.i 3 = (BitVec.ofNat 4 1, BitVec.ofNat 4 3) ∧
      (∀ j : Line, mapPair writState.params.map writState.i j ≠ (BitVec.ofNat 4 0, BitVec.ofNat 4 0)) :=
  ⟨⟨rfl, cfgErr_offered 0, rfl⟩, by decide, by decide⟩

/-- The fault happens. -/
theorem witness_OnlyAnElementAboveSevenFaults :
    step badRomState = .fault (.romElementAboveSeven 15) ∧
      ((badRomState.hostAt 0).rst = false ∧ badRomState.ph = .writ ∧ 7 < (mapPair badRomState.params.map 15 3).1) :=
  ⟨eq_fault (by decide), by decide⟩

/-- States that meet the invariant, one for each phase: idle after a scan, then step 3, step 0 after a scan, step 0
after reset, a waiting step, a writing step. -/
theorem witness_Inv : idleState.Inv ∧ addrState.Inv ∧ { addrState with i := 0, sel := 8 }.Inv ∧
    { addrState with i := 0, sel := 0 }.Inv ∧ (waitState 0).Inv ∧ writState.Inv ∧
    (invalidOffered 0x10000000000000000).Inv := by
  refine ⟨?_, ?_, ?_, ?_, ?_, ?_, ?_⟩ <;> constructor <;>
    simp [idleState, addrState, waitState, writState, invalidOffered, State.reset, State.resetOf, referenceParams,
      State.cfgErr, validMap_mapLinear] <;> decide

theorem witness_OneSelectLinePerStep :
    ((0 : Addr) ≠ 15 ∧ (14 : Addr) ≠ 15) ∧
      (addrState.Inv ∧ addrState.ph = .addr ∧ (addrState.hostAt 0).rst = false ∧ addrState.i ≠ 0) ∧
      ({ addrState with i := 0, sel := 0 }.Inv ∧ ({ addrState with i := 0, sel := 0 } : State).i = 0) ∧
      ({ addrState with i := 0, sel := 8 }.Inv ∧ ({ addrState with i := 0, sel := 8 } : State).sel = 8) :=
  ⟨by decide, ⟨witness_Inv.2.1, rfl, rfl, by decide⟩, ⟨witness_Inv.2.2.2.1, rfl⟩, ⟨witness_Inv.2.2.1, rfl⟩⟩

/-- The hypotheses the six statements on single registers share, with an edge for each of their clauses: an `ADDR` edge,
a sampling `WAIT` edge, a counting one, the two `WRIT` edges, and the acceptance of each command. They are
`BoardChangesOnlyAtWritOrReset`, `SelectRegisterWriters`, `AgeCountsSinceTheSelectWrite`, `SampleRegisterWriters`,
`ResponseIsGivenExactlyWhenDue`, `BusyRisesAndFallsWithTheScan` and `ScanIndexWriters`. -/
theorem witness_register_writers :
    (∃ t, step addrState = .next t ∧ (t.ph == .wait) = true) ∧ (addrState.hostAt 0).rst = false ∧
      (∃ t, step (waitState 0) = .next t ∧ (t.ph == .wait) = true) ∧ ((waitState 0).hostAt 0).rst = false ∧
      (∃ t, step (waitState 1) = .next t ∧ (t.ph == .writ) = true) ∧ ((waitState 1).hostAt 0).rst = false ∧
      (∃ t, step writState = .next t ∧ (t.ph == .addr) = true) ∧ (writState.hostAt 0).rst = false ∧
      (∃ t, step lastState = .next t ∧ (t.ph == .idle) = true) ∧ (lastState.hostAt 0).rst = false ∧
      (∃ t, step State.reset = .next t ∧ (t.ph == .idle) = true) ∧ (State.reset.hostAt 0).rst = false :=
  ⟨exists_next (by decide), rfl, exists_next (by decide), rfl, exists_next (by decide), rfl,
    exists_next (by decide), rfl, exists_next (by decide), rfl, exists_next (by decide), rfl⟩

theorem witness_commands_that_write :
    ((offered 0x4000000000000000F).SetsAddress 15 ∧
      ∃ t, step (offered 0x4000000000000000F) = .next t ∧ (t.sel == 15) = true) ∧
      (rdoOffered.Samples ∧ ∃ t, step rdoOffered = .next t ∧ t.rspValid = true) ∧
      (scanOffered.StartsScan ∧ ∃ t, step scanOffered = .next t ∧ t.busy = true) ∧
      ((offered 0x4000000000000000F).hostAt 0).rst = false ∧ (rdoOffered.hostAt 0).rst = false ∧
      (scanOffered.hostAt 0).rst = false :=
  ⟨⟨⟨_, accepts_offered _, rfl, cfgErr_offered _, rfl, by decide⟩, exists_next_of test_seta (by simp_all)⟩,
    ⟨⟨0x50000000000000000, ⟨rfl, rfl, rfl, rfl⟩, rfl, cfgErr_offered 0⟩, exists_next_of test_rdo_settled (by simp_all)⟩,
    ⟨scanOffered_startsScan, exists_next_of test_scan_starts (by simp_all)⟩, rfl, rfl, rfl⟩

/-- The other clauses of `BoardChangesOnlyAtWritOrReset`: a cell that step 2 does not name beside one it does, a command
at its own edge, and steps that accept neither `GETSQ` nor `GETROW`, one of a scan and one of a settled `RDO`. -/
theorem witness_BoardChangesOnlyAtWritOrReset :
    (writState.ph = .writ ∧
      ∀ j : Line, mapPair writState.params.map writState.i j ≠ (BitVec.ofNat 4 0, BitVec.ofNat 4 0)) ∧
      (∃ t, exec .scan State.reset = .next t ∧ State.reset.ph = .idle) ∧
      ((∃ t, step writState = .next t ∧ (t.ph == .addr) = true) ∧
        (∀ w, writState.Accepts w → w.op ≠ 0x2 ∧ w.op ≠ 0x3) ∧ ¬ writState.Samples) ∧
      ((∃ t, step rdoOffered = .next t ∧ (t.smp == 6) = true) ∧
        (∀ w, rdoOffered.Accepts w → w.op ≠ 0x2 ∧ w.op ≠ 0x3) ∧
        rdoOffered.age = rdoOffered.params.settleCycles) := by
  refine ⟨⟨rfl, by decide⟩, ⟨_, (acceptCommand_of_ok rfl cfgErr_reset _ : execScan State.reset = _), rfl⟩, ⟨exists_next (by decide), ?_, ?_⟩,
    ⟨exists_next_of test_rdo_settled (by simp_all), ?_, rfl⟩⟩
  · intro w h
    cases h.1
  · rintro ⟨w, h, _⟩
    cases h.1
  · rintro w ⟨_, _, _, rfl⟩
    decide

/-- The status clauses of `ResponseIsGivenExactlyWhenDue`: a state with each code, each just given. -/
theorem witness_ResponseIsGivenExactlyWhenDue :
    (∃ t, step (offered 0x20000000200000004) = .next t ∧ (t.rspStatus == .ok) = true) ∧
      (∃ t, step (offered 0x20000000000000100) = .next t ∧ (t.rspStatus == .boundsError) = true) ∧
      (∃ t, step (invalidOffered 0x20000000000000008) = .next t ∧ (t.rspStatus == .configError) = true) ∧
      (∃ t, step (offered 0x60000000300000003) = .next t ∧ (t.rspStatus == .illegalCommand) = true) :=
  ⟨exists_next_of test_getsq (by simp_all), exists_next_of test_getsq_bounds (by simp_all), exists_next (by decide),
    exists_next_of test_illegal_word (by simp_all)⟩

/-- The two other clauses of `AgeCountsSinceTheSelectWrite`: a reset edge, and a count within its range. The reset edge
is also that of `BoardChangesOnlyAtWritOrReset`, `ResponseIsGivenExactlyWhenDue` and `BusyRisesAndFallsWithTheScan`. -/
theorem witness_AgeCountsSinceTheSelectWrite :
    (∃ t, step { writState with hostIn := [HostEdge.reset] } = .next t ∧ (t.age == 0) = true) ∧
      (({ writState with hostIn := [HostEdge.reset] } : State).hostAt 0).rst = true ∧
      writState.age ≤ writState.params.settleCycles :=
  ⟨exists_next (by decide), rfl, by decide⟩

theorem witness_ParametersNeverChange : ∃ t, runEdges 2 (waitState 1) = .next t ∧ (t.ph == .addr) = true :=
  exists_next (by decide)

/-- A reset edge with a command offered; and the edge nearest to one with `RST = 0`, the idle edge after reset. -/
theorem witness_ResetEdgeClearsEverything :
    (({ writState with hostIn := [{ rst := true, cmdValid := true, cmd := 0x10000000000000000 }] } : State).hostAt
      0).rst = true ∧
      (∃ t, step State.reset = .next t ∧ (t.ph == .idle) = true) ∧ (State.reset.hostAt 0).rst = false ∧
      1 ≤ State.reset.params.settleCycles :=
  ⟨rfl, exists_next (by decide), rfl, by decide⟩

/-- A reset at the edge right after the accepting one, and two quiet edges after it. -/
theorem witness_AbandonedScanNeverAnswers :
    let s : State := { scanOffered with hostIn := [HostEdge.offer 0x10000000000000000, HostEdge.reset] }
    s.StartsScan ∧ s.NoResetFor (0 + 1) ∧ (s.hostAt (0 + 1)).rst = true ∧ 0 < 16 * stepEdges s.params ∧
      (∀ m, m < 2 → (s.hostAt (0 + 2 + m)).rst = false ∧ (s.hostAt (0 + 2 + m)).cmdValid = false) ∧
      ∃ t, runEdges (0 + 2) s = .next t ∧ (t.ph == .idle) = true :=
  ⟨⟨0x10000000000000000, ⟨rfl, rfl, rfl, rfl⟩, rfl, cfgErr_offered 0⟩, by unfold State.NoResetFor; decide, rfl,
    by decide, by decide, exists_next (by decide +kernel)⟩

/-- `ResetStateHoldsResetValues` and `ResetMeetsTheInvariant` for another instance: `S = 1`, the least. -/
theorem witness_ResetMeetsTheInvariant : 1 ≤ ({ map := mapTranspose, settleCycles := 1 } : Params).settleCycles := by
  decide

/-- A table in range, valid; one in range and not injective; a state of each. -/
theorem witness_ValidTableIsABijection :
    (validMap mapLinear = true ∧ rangeOk mapLinear = true) ∧
      (rangeOk (Vector.replicate 16 0) = true ∧ validMap (Vector.replicate 16 0) = false) ∧
      State.reset.params.map = mapLinear := by decide +kernel

theorem witness_SeenMaskComputesValid : validBySeen mapLinear = true := by decide +kernel

theorem witness_ScanStepIsAddressSettleSampleWrite :
    addrState.ph = .addr ∧ addrState.cfgErr = false ∧ addrState.NoResetFor (stepEdges addrState.params) ∧
      0 ≤ addrState.params.settleCycles ∧ 1 ≤ addrState.params.settleCycles ∧
      mapPair addrState.params.map addrState.i 0 = (BitVec.ofNat 4 1, BitVec.ofNat 4 4) ∧
      (∀ j : Line, mapPair addrState.params.map addrState.i j ≠ (BitVec.ofNat 4 1, BitVec.ofNat 4 3)) :=
  ⟨rfl, cfgErr_offered 0, noResetFor_of_nil rfl _, by decide, by decide, by decide, by decide⟩

/-- The hypotheses of `CompletedScanIsTheDecodedBoard`, `ScanGivesExactlyOneResponse` and
`ScanVisitsEveryAddressAtItsIndex`. -/
theorem witness_scan_left_alone :
    scanOffered.StartsScan ∧ scanOffered.NoResetFor (scanEdges scanOffered.params) ∧
      mapPair scanOffered.params.map 15 3 = (BitVec.ofNat 4 7, BitVec.ofNat 4 7) :=
  ⟨scanOffered_startsScan, noResetFor_of_single rfl _, by decide⟩

/-- After step 0 and just before the `WRIT` edge of step 1; and after the last step. -/
theorem witness_BoardDuringAScanIsPartlyUpdated :
    scanOffered.StartsScan ∧ (∀ n, scanOffered.NoResetFor n) ∧ 3 < stepEdges scanOffered.params ∧
      ((0 : Addr) = 15 → 3 = 0) ∧ 0 < stepEdges scanOffered.params ∧ ((15 : Addr) = 15 → 0 = 0) :=
  ⟨scanOffered_startsScan, noResetFor_of_single rfl, by decide, by decide, by decide, by decide⟩

/-- A schedule of two scans back to back, 65 edges each, under the stub of V12. -/
def twoScans : State :=
  { State.reset with
    hostIn := HostEdge.offer 0x10000000000000000 ::
      (List.replicate 64 HostEdge.quiet ++ [HostEdge.offer 0x10000000000000000])
    env := List.replicate 130 stubV12 }

theorem staticFor_of_replicate {s : State} {stub : Stub} {n : Nat} (h : s.env = List.replicate n stub) :
    s.StaticFor stub n := by
  intro k hk a
  simp [State.envAt, h, hk]

theorem witness_ScanIsIdempotentUnderAStaticStub :
    twoScans.StartsScan ∧ twoScans.NoResetFor (2 * scanEdges twoScans.params) ∧
      (twoScans.hostAt (scanEdges twoScans.params)).cmdValid = true ∧
      (twoScans.hostAt (scanEdges twoScans.params)).cmd.op = 0x1 ∧
      twoScans.StaticFor stubV12 (2 * scanEdges twoScans.params) :=
  ⟨⟨0x10000000000000000, ⟨rfl, rfl, rfl, rfl⟩, rfl, cfgErr_offered 0⟩, by unfold State.NoResetFor; decide +kernel, rfl,
    rfl, staticFor_of_replicate rfl⟩

/-- V14 and V15. -/
theorem witness_PolarityExtremes (level : Bool) :
    let s : State := { scanOffered with env := List.replicate 65 (Vector.replicate 16 (if level then 0xF else 0x0)) }
    s.StartsScan ∧ s.NoResetFor (scanEdges s.params) ∧
      s.StaticFor (Vector.replicate 16 (if level then 0xF else 0x0)) (scanEdges s.params) :=
  ⟨⟨0x10000000000000000, ⟨rfl, rfl, rfl, rfl⟩, rfl, cfgErr_offered 0⟩, noResetFor_of_single rfl _,
    staticFor_of_replicate rfl⟩

/-- A second state with another board, `SEL`, `SMP`, `AGE` and response. -/
theorem witness_ScanForgetsWhatWasBefore :
    let t : State := { scanOffered with brd := boardV12, sel := 5, smp := 9, age := 1, rspStatus := .boundsError }
    scanOffered.StartsScan ∧ scanOffered.NoResetFor (scanEdges scanOffered.params) ∧ t.ph = .idle ∧
      t.params = scanOffered.params ∧ t.edge = scanOffered.edge ∧ t.hostIn = scanOffered.hostIn ∧
      t.env = scanOffered.env ∧ t.brd ≠ scanOffered.brd :=
  ⟨scanOffered_startsScan, noResetFor_of_single rfl _, rfl, rfl, rfl, rfl, rfl, by decide⟩

/-- V44: `GETROW 0` held from the edge after the accepting one. -/
theorem witness_CommandHeldThroughAScanIsAccepted :
    let s : State := { State.reset with
      hostIn := HostEdge.offer 0x10000000000000000 :: List.replicate 65 (HostEdge.offer 0x30000000000000000) }
    s.StartsScan ∧ decode 0x30000000000000000 = .ok (.getrow 0) ∧ s.NoResetFor (scanEdges s.params) ∧
      (∀ k, 1 ≤ k → k ≤ scanEdges s.params → s.hostAt k = HostEdge.offer 0x30000000000000000) := by
  refine ⟨⟨0x10000000000000000, ⟨rfl, rfl, rfl, rfl⟩, rfl, cfgErr_offered 0⟩, by decide,
    by unfold State.NoResetFor; decide +kernel, ?_⟩
  intro k h1 h2
  obtain ⟨k, rfl⟩ : ∃ m, k = m + 1 := ⟨k - 1, by omega⟩
  have hk : k < 65 := Nat.lt_of_succ_le h2
  simp only [State.hostAt, List.getElem?_cons_succ, List.getElem?_replicate, if_pos hk, Option.getD_some]

theorem witness_BoardPersistsBetweenScans :
    (offered 0x4000000000000000F).ph = .idle ∧ (offered 0x4000000000000000F).NoResetFor 1 ∧
      (∀ k, k < 1 → ((offered 0x4000000000000000F).hostAt k).cmdValid = true →
        ((offered 0x4000000000000000F).hostAt k).cmd.op ≠ 0x1) ∧
      ∃ t, runEdges 1 (offered 0x4000000000000000F) = .next t ∧ t.sel = 15 := by
  refine ⟨rfl, noResetFor_of_single rfl 1, by decide, ?_⟩
  obtain ⟨t, e, h⟩ := exists_next_of (q := fun t => t.sel == 15) test_seta (by simp_all)
  exact ⟨t, runEdges_succ_of_step e 0, eq_of_beq h⟩

/-- `EveryStepKeepsTheInvariant` and `NoRunStops`: a state that meets the invariant and steps. -/
theorem witness_EveryStepKeepsTheInvariant :
    writState.Inv ∧ ∃ t, step writState = .next t ∧ (t.ph == .addr) = true :=
  ⟨witness_Inv.2.2.2.2.2.1, exists_next (by decide)⟩

end Sys2Proof.Tests
end

section
/-! SUPPORT. What one edge with `RST = 0` can do, said once: `EdgeTo s t` has one constructor for each kind of edge, and
every step is one of them (`edgeTo_of_step`) or a reset edge (`eq_resetEdge_of_step`). -/

namespace Sys2Proof.Machine

open Sys2Proof

/-! ### The word at an accepting edge -/

/-- R74, R75: the opcode has a command or is illegal. -/
theorem op_cases (w : CommandWord) :
    w.op = 0x1 ∨ w.op = 0x2 ∨ w.op = 0x3 ∨ w.op = 0x4 ∨ w.op = 0x5 ∨ (w.op = 0x0 ∨ 0x6 ≤ w.op) := by
  generalize w.op = op
  revert op
  decide

theorem decode_of_illegal {w : CommandWord} (h : w.op = 0x0 ∨ 0x6 ≤ w.op) :
    decode w = .error (.illegalOpcode w.op) := by
  unfold decode
  split <;> simp_all

/-- Only one word is accepted at an edge: the one on `CMD`. -/
theorem State.Accepts.eq {s : State} {w w' : CommandWord} (h : s.Accepts w) (h' : s.Accepts w') : w' = w := by
  obtain ⟨-, -, -, hw⟩ := h
  obtain ⟨-, -, -, hw'⟩ := h'
  exact hw'.symm.trans hw

theorem not_accepts_of_busy {s : State} (h : s.ph ≠ .idle) (w : CommandWord) : ¬ s.Accepts w :=
  fun ha => h ha.1

theorem not_accepts_of_quiet {s : State} (h : (s.hostAt 0).cmdValid = false) (w : CommandWord) : ¬ s.Accepts w := by
  rintro ⟨-, -, hv, -⟩
  simp [h] at hv

theorem State.Accepts.startsScan_iff {s : State} {w : CommandWord} (ha : s.Accepts w) :
    s.StartsScan ↔ w.op = 0x1 ∧ s.cfgErr = false :=
  ⟨fun ⟨_, ha', h⟩ => ha.eq ha' ▸ h, fun h => ⟨w, ha, h⟩⟩

theorem State.Accepts.setsAddress_iff {s : State} {w : CommandWord} (ha : s.Accepts w) (a : Nat) :
    s.SetsAddress a ↔ w.op = 0x4 ∧ s.cfgErr = false ∧ w.x.toNat = a ∧ a ≤ 15 :=
  ⟨fun ⟨_, ha', h⟩ => ha.eq ha' ▸ h, fun h => ⟨w, ha, h⟩⟩

/-- An edge that accepts no word starts no scan. -/
theorem not_startsScan_of_not_accepts {s : State} (h : ∀ w, ¬ s.Accepts w) : ¬ s.StartsScan :=
  fun ⟨w, ha, _⟩ => h w ha

theorem not_startsScan_of_busy {s : State} (h : s.ph ≠ .idle) : ¬ s.StartsScan :=
  not_startsScan_of_not_accepts (not_accepts_of_busy h)

/-- An edge that accepts no word runs no `SETA`. -/
theorem not_setsAddress_of_not_accepts {s : State} (h : ∀ w, ¬ s.Accepts w) (a : Nat) : ¬ s.SetsAddress a :=
  fun ⟨w, ha, _⟩ => h w ha

/-! ### The kinds of edges -/

/-- The causes of `BOUNDS_ERROR` (R159), each on the whole operand. -/
def OutOfBounds (w : CommandWord) : Prop :=
  (w.op = 0x2 ∧ (7 < w.x.toNat ∨ 7 < w.y.toNat)) ∨ (w.op = 0x3 ∧ 7 < w.x.toNat) ∨ (w.op = 0x4 ∧ 15 < w.x.toNat)

/-- The response to an accepted word that writes the response registers and no other (R141, R143, R157 to R159). -/
inductive AnswersOnly (s : State) (w : CommandWord) : Status → BitVec 8 → Prop
  | configError (hc : s.cfgErr = true) : AnswersOnly s w .configError 0
  | illegal (hc : s.cfgErr = false) (hop : w.op = 0x0 ∨ 0x6 ≤ w.op) : AnswersOnly s w .illegalCommand 0
  | outOfBounds (hc : s.cfgErr = false) (h : OutOfBounds w) : AnswersOnly s w .boundsError 0
  | getsq (hc : s.cfgErr = false) (hop : w.op = 0x2) (x y : Coord) (hx : w.x.toNat = x.val) (hy : w.y.toNat = y.val) :
      AnswersOnly s w .ok (bitByte (cellRead s.brd (flip y) x))
  | getrow (hc : s.cfgErr = false) (hop : w.op = 0x3) (r : Coord) (hr : w.x.toNat = r.val) :
      AnswersOnly s w .ok s.brd[r]

/-- The edges with `RST = 0` that give a next state (R190), by what they do. -/
inductive EdgeTo (s : State) : State → Prop
  /-- `IDLE`, and no word is offered. -/
  | idle (hp : s.ph = .idle) (hv : (s.hostAt 0).cmdValid = false) : EdgeTo s (edgeDefaults s)
  /-- A word is accepted and changes nothing but the response registers. -/
  | answer {w : CommandWord} {st : Status} {d : BitVec 8} (ha : s.Accepts w) (h : AnswersOnly s w st d) :
      EdgeTo s (respond (edgeDefaults s) st d)
  /-- A `SCAN` starts (R125). -/
  | scan {w : CommandWord} (ha : s.Accepts w) (hc : s.cfgErr = false) (hop : w.op = 0x1) :
      EdgeTo s (setPhase (setIndex (edgeDefaults s) 0) .addr)
  /-- A `SETA` in bounds (R101). -/
  | seta {w : CommandWord} (ha : s.Accepts w) (hc : s.cfgErr = false) (hop : w.op = 0x4) (hx : w.x.toNat ≤ 15) :
      EdgeTo s (respond (uSetA (edgeDefaults s) (BitVec.ofNat 4 w.x.toNat)) .ok 0)
  /-- An `RDO` (R104). -/
  | rdo {w : CommandWord} (ha : s.Accepts w) (hc : s.cfgErr = false) (hop : w.op = 0x5) :
      EdgeTo s (respond (uRdo (edgeDefaults s) s.senseRead) .ok (s.senseRead.zeroExtend 8))
  /-- The `ADDR` edge of a scan step. -/
  | addr (hp : s.ph = .addr) : EdgeTo s (setPhase (uSetA (edgeDefaults s) (gray s.i)) .wait)
  /-- A `WAIT` edge that only counts. -/
  | count (hp : s.ph = .wait) (hage : s.age ≠ s.params.settleCycles) : EdgeTo s (edgeDefaults s)
  /-- The sampling `WAIT` edge. -/
  | sample (hp : s.ph = .wait) (hage : s.age = s.params.settleCycles) :
      EdgeTo s (setPhase (uRdo (edgeDefaults s) (s.envAt 0 s.sel)) .writ)
  /-- The `WRIT` edge of a step that another follows. -/
  | writ {b : Board} (hp : s.ph = .writ) (hi : s.i ≠ 15)
      (hb : writeLines (romRead s.params.map s.i) s.smp lines s.brd = some b) :
      EdgeTo s (setPhase (setIndex (setBoard (edgeDefaults s) b) (s.i + 1)) .addr)
  /-- The `WRIT` edge of step 15, which ends the scan (R93). -/
  | last {b : Board} (hp : s.ph = .writ) (hi : s.i = 15)
      (hb : writeLines (romRead s.params.map s.i) s.smp lines s.brd = some b) :
      EdgeTo s (respond (setPhase (setIndex (setBoard (edgeDefaults s) b) 0) .idle) .ok 0)

/-! ### Every step is one of them -/

section
variable {s t : State} {w : CommandWord}

/-- Under `CFG_ERR` every accepted word is answered `CONFIG_ERROR` (R157). -/
theorem acceptWord_of_cfgErr (hp : s.ph = .idle) (hc : s.cfgErr = true) (w : CommandWord) :
    acceptWord w s = .next (raiseError (edgeDefaults s) .configError) := by
  unfold acceptWord
  split
  next i _ =>
    obtain ⟨body, hbody⟩ := exec_eq_acceptCommand i s
    rw [hbody, acceptCommand_of_cfgErr hp hc]
  next => exact acceptCommand_of_cfgErr hp hc _

theorem edgeTo_of_getsq (ha : s.Accepts w) (hc : s.cfgErr = false) (hop : w.op = 0x2)
    (h : exec (.getsq w.x.toNat w.y.toNat) s = .next t) : EdgeTo s t := by
  simp only [exec, execGetsq, acceptCommand_of_ok ha.1 hc, Host.Outcome.next.injEq] at h
  subst h
  rcases Nat.lt_or_ge 7 w.x.toNat with hx | hx
  · rw [boardOperand?_of_gt hx]
    exact .answer ha (.outOfBounds hc (.inl ⟨hop, .inl hx⟩))
  rcases Nat.lt_or_ge 7 w.y.toNat with hy | hy
  · rw [boardOperand?_of_le hx, boardOperand?_of_gt hy]
    exact .answer ha (.outOfBounds hc (.inl ⟨hop, .inr hy⟩))
  · rw [boardOperand?_of_le hx, boardOperand?_of_le hy]
    exact .answer ha (.getsq hc hop _ _ rfl rfl)

theorem edgeTo_of_getrow (ha : s.Accepts w) (hc : s.cfgErr = false) (hop : w.op = 0x3)
    (h : exec (.getrow w.x.toNat) s = .next t) : EdgeTo s t := by
  simp only [exec, execGetrow, acceptCommand_of_ok ha.1 hc, Host.Outcome.next.injEq] at h
  subst h
  rcases Nat.lt_or_ge 7 w.x.toNat with hx | hx
  · rw [boardOperand?_of_gt hx]
    exact .answer ha (.outOfBounds hc (.inr (.inl ⟨hop, hx⟩)))
  · rw [boardOperand?_of_le hx]
    exact .answer ha (.getrow hc hop _ rfl)

theorem edgeTo_of_seta (ha : s.Accepts w) (hc : s.cfgErr = false) (hop : w.op = 0x4)
    (h : exec (.seta w.x.toNat) s = .next t) : EdgeTo s t := by
  simp only [exec, execSeta, acceptCommand_of_ok ha.1 hc, Host.Outcome.next.injEq] at h
  subst h
  rcases Nat.lt_or_ge 15 w.x.toNat with hx | hx
  · rw [addrOperand?_of_gt hx]
    exact .answer ha (.outOfBounds hc (.inr (.inr ⟨hop, hx⟩)))
  · rw [addrOperand?_of_le hx]
    exact .seta ha hc hop hx

theorem edgeTo_of_acceptWord (ha : s.Accepts w) (h : acceptWord w s = .next t) : EdgeTo s t := by
  cases hc : s.cfgErr with
  | true =>
    rw [acceptWord_of_cfgErr ha.1 hc] at h
    cases h
    exact .answer ha (.configError hc)
  | false =>
    rcases op_cases w with hop | hop | hop | hop | hop | hop
    · rw [acceptWord_of_decode (decode_of_op_1 hop), exec, execScan, acceptCommand_of_ok ha.1 hc] at h
      cases h
      exact .scan ha hc hop
    · rw [acceptWord_of_decode (decode_of_op_2 hop)] at h
      exact edgeTo_of_getsq ha hc hop h
    · rw [acceptWord_of_decode (decode_of_op_3 hop)] at h
      exact edgeTo_of_getrow ha hc hop h
    · rw [acceptWord_of_decode (decode_of_op_4 hop)] at h
      exact edgeTo_of_seta ha hc hop h
    · rw [acceptWord_of_decode (decode_of_op_5 hop), exec, execRdo, acceptCommand_of_ok ha.1 hc] at h
      cases h
      exact .rdo ha hc hop
    · rw [acceptWord_of_illegal (decode_of_illegal hop), illegalCommandEdge, acceptCommand_of_ok ha.1 hc] at h
      cases h
      exact .answer ha (.illegal hc hop)

theorem edgeTo_of_writEdge (hp : s.ph = .writ) (h : writEdge s = .next t) : EdgeTo s t := by
  unfold writEdge at h
  split at h
  next b hb =>
    cases h
    by_cases hi : s.i = 15
    · rw [uNext_of_last (d := setBoard (edgeDefaults s) b) hi]
      exact .last hp hi hb
    · rw [uNext_of_not_last (d := setBoard (edgeDefaults s) b) hi]
      exact .writ hp hi hb
  next => cases h

theorem edgeTo_of_sequencerEdge (hp : s.ph ≠ .idle) (h : sequencerEdge s = .next t) : EdgeTo s t := by
  cases hph : s.ph with
  | idle => exact absurd hph hp
  | addr =>
    rw [sequencerEdge_of_addr hph] at h
    cases h
    exact .addr hph
  | wait =>
    rw [sequencerEdge_of_wait hph] at h
    cases h
    by_cases hage : s.age = s.params.settleCycles
    · rw [waitEdge_of_settled hage]
      exact .sample hph hage
    · rw [waitEdge_of_unsettled hage]
      exact .count hph hage
  | writ =>
    rw [sequencerEdge_of_writ hph] at h
    exact edgeTo_of_writEdge hph h

/-- R190: a step with `RST = 0` is one of the edges of `EdgeTo`. -/
theorem edgeTo_of_step (h : step s = .next t) (hr : (s.hostAt 0).rst = false) : EdgeTo s t := by
  rcases step_cases s with ⟨hr', -⟩ | ⟨-, hp, hv, e⟩ | ⟨-, hp, hv, e⟩ | ⟨-, hp, e⟩
  · simp [hr] at hr'
  · exact edgeTo_of_acceptWord ⟨hp, hr, hv, rfl⟩ (e.symm.trans h)
  · rw [e] at h
    cases h
    exact .idle hp hv
  · exact edgeTo_of_sequencerEdge hp (e.symm.trans h)

/-- R180: a step with `RST = 1` is a reset edge. -/
theorem eq_resetEdge_of_step (h : step s = .next t) (hr : (s.hostAt 0).rst = true) : t = resetEdge s := by
  simp only [step, clockEdge, hr, if_true, Host.Outcome.next.injEq] at h
  exact h.symm

end

/-! ### What an answer is not -/

section
variable {s : State} {w : CommandWord} {st : Status} {d : BitVec 8}

/-- A word that is only answered starts no scan. -/
theorem AnswersOnly.not_startsScan (h : AnswersOnly s w st d) (ha : s.Accepts w) : ¬ s.StartsScan := by
  rw [ha.startsScan_iff]
  cases h with
  | illegal _ hop => rintro ⟨h1, -⟩; simp [h1] at hop
  | outOfBounds _ hb => rintro ⟨h1, -⟩; simp [OutOfBounds, h1] at hb
  | configError hc => simp [hc]
  | getsq _ hop | getrow _ hop => simp [hop]

/-- A word that is only answered writes no address. -/
theorem AnswersOnly.not_setsAddress (h : AnswersOnly s w st d) (ha : s.Accepts w) (a : Nat) : ¬ s.SetsAddress a := by
  rw [ha.setsAddress_iff]
  cases h with
  | illegal _ hop => rintro ⟨h4, -⟩; simp [h4] at hop
  | outOfBounds _ hb => rintro ⟨h4, -, rfl, hle⟩; simp [OutOfBounds, h4] at hb; omega
  | configError hc => simp [hc]
  | getsq _ hop | getrow _ hop => simp [hop]

end

end Sys2Proof.Machine
end

section
/-! PROOFS. The registers of file 10 edge by edge: the settle counter, the response registers, `BUSY`, and the board
port. Each statement about steps is read off the kinds of edges, once for each kind. -/

namespace Sys2Proof.Machine

open Sys2Proof

/-! ### The settle counter (R31) -/

/-- The edge writes `SEL` (R25): the `ADDR` edge of a scan step, or a `SETA` in bounds. -/
def State.WritesSel (s : State) : Prop := s.ph = .addr ∨ ∃ a, s.SetsAddress a

/-- An edge that accepts no word, outside `ADDR`, does not write `SEL`. -/
theorem not_writesSel_of_not_accepts {s : State} (hp : s.ph ≠ .addr) (h : ∀ w, ¬ s.Accepts w) : ¬ s.WritesSel := by
  rintro (hp' | ⟨a, hs⟩)
  · exact hp hp'
  · exact not_setsAddress_of_not_accepts h a hs

/-- An accepted word writes `SEL` exactly if it is a `SETA` that sets an address. -/
theorem State.Accepts.writesSel_iff {s : State} {w : CommandWord} (ha : s.Accepts w) :
    s.WritesSel ↔ ∃ a, s.SetsAddress a := by
  simp [State.WritesSel, ha.1]

/-- R31: `AGE` restarts at the edges that write `SEL` and makes its ordinary count at all others. -/
theorem EdgeTo.age_cases {s t : State} (h : EdgeTo s t) :
    (s.WritesSel ∧ t.age = 0) ∨ (¬ s.WritesSel ∧ t.age = ageCount s.params s.age) := by
  cases h with
  | seta ha hc hop hx => exact .inl ⟨.inr ⟨_, (ha.setsAddress_iff _).2 ⟨hop, hc, rfl, hx⟩⟩, rfl⟩
  | addr hp => exact .inl ⟨.inl hp, rfl⟩
  | idle hp hv => exact .inr ⟨not_writesSel_of_not_accepts (by simp [hp]) (not_accepts_of_quiet hv), rfl⟩
  | answer ha hans =>
    refine .inr ⟨?_, rfl⟩
    rw [ha.writesSel_iff]
    rintro ⟨a, hs⟩
    exact hans.not_setsAddress ha a hs
  | scan ha _ hop | rdo ha _ hop =>
    exact .inr ⟨by simp [ha.writesSel_iff, ha.setsAddress_iff, hop], rfl⟩
  | count hp _ | sample hp _ | writ hp _ _ | last hp _ _ =>
    exact .inr ⟨not_writesSel_of_not_accepts (by simp [hp]) (not_accepts_of_busy (by simp [hp])), rfl⟩

theorem EdgeTo.params_eq {s t : State} (h : EdgeTo s t) : t.params = s.params := by
  cases h <;> rfl

/-- R31: the range of `AGE` is kept. -/
theorem step_keeps_ageBound {s t : State} (h : step s = .next t) (hle : s.age ≤ s.params.settleCycles) :
    t.age ≤ t.params.settleCycles := by
  cases hr : (s.hostAt 0).rst with
  | true => simp [eq_resetEdge_of_step h hr]
  | false =>
    have he := edgeTo_of_step h hr
    rw [he.params_eq]
    rcases he.age_cases with ⟨-, hage⟩ | ⟨-, hage⟩
    · omega
    · rw [hage]
      exact ageCount_le hle

/-- Settles O29, from what each kind of edge does to `AGE`. -/
theorem ageCountsSinceTheSelectWrite : Obligations.AgeCountsSinceTheSelectWrite := by
  refine ⟨fun s t h hr => ?_, fun s t h hr => ?_, fun s t h hle => step_keeps_ageBound h hle, fun s n => rfl⟩
  · rcases (edgeTo_of_step h hr).age_cases with ⟨hw, hage⟩ | ⟨hw, hage⟩
    · exact ⟨fun _ => hage, fun hn => absurd hw hn⟩
    · exact ⟨fun hw' => absurd hw' hw, fun _ => hage⟩
  · simp [eq_resetEdge_of_step h hr]

/-! ### The response registers (R29) -/

/-- A response is due at the edge: a word is accepted that starts no scan, or step 15 of a scan ends (R188). -/
def State.ResponseDue (s : State) : Prop :=
  ((∃ w, s.Accepts w) ∧ ¬ s.StartsScan) ∨ (s.ph = .writ ∧ s.i = 15)

/-- While a scan runs, a response is due only as step 15 ends. -/
theorem responseDue_iff_of_busy {s : State} (h : s.ph ≠ .idle) : s.ResponseDue ↔ s.ph = .writ ∧ s.i = 15 := by
  simp [State.ResponseDue, not_accepts_of_busy h]

/-- R29: a response is given where it is due; everywhere else `RSP_VALID` falls and the rest is held. -/
theorem EdgeTo.response_cases {s t : State} (h : EdgeTo s t) :
    (s.ResponseDue ∧ t.rspValid = true) ∨ (¬ s.ResponseDue ∧ NoResponse s t) := by
  cases h with
  | answer ha hans => exact .inl ⟨.inl ⟨⟨_, ha⟩, hans.not_startsScan ha⟩, rfl⟩
  | seta ha _ hop _ | rdo ha _ hop => exact .inl ⟨.inl ⟨⟨_, ha⟩, by simp [ha.startsScan_iff, hop]⟩, rfl⟩
  | last hp hi _ => exact .inl ⟨.inr ⟨hp, hi⟩, rfl⟩
  | idle hp hv => exact .inr ⟨by simp [State.ResponseDue, not_accepts_of_quiet hv, hp], rfl, rfl, rfl⟩
  | scan ha hc hop =>
    exact .inr ⟨by simp [State.ResponseDue, ha.startsScan_iff, hop, hc, ha.1], rfl, rfl, rfl⟩
  | addr hp | count hp _ | sample hp _ =>
    exact .inr ⟨by simp [responseDue_iff_of_busy, hp], rfl, rfl, rfl⟩
  | writ hp hi _ =>
    exact .inr ⟨fun hdue => hi ((responseDue_iff_of_busy (by simp [hp])).1 hdue).2, rfl, rfl, rfl⟩

/-- R29, R70: the status drives its port, and the high bits of the response word, by its code. -/
theorem status_code_on_port {s : State} {st : Status} (h : s.rspStatus = st) :
    s.outputs.rspStatus = st.code ∧ s.responseWord = st.code ++ s.rspData := by
  subst h
  exact ⟨rfl, rfl⟩

/-- Settles O31, from what each kind of edge does to the response registers. -/
theorem responseIsGivenExactlyWhenDue : Obligations.ResponseIsGivenExactlyWhenDue := by
  refine ⟨fun s t h hr => ?_, fun s t h hr => ?_, fun p => ⟨rfl, rfl, rfl⟩, fun s =>
    ⟨rfl, rfl, status_code_on_port, status_code_on_port, status_code_on_port, status_code_on_port⟩⟩
  · rcases (edgeTo_of_step h hr).response_cases with ⟨hdue, hv⟩ | ⟨hdue, hno⟩
    · exact ⟨iff_of_true hv hdue, .inl hv⟩
    · exact ⟨iff_of_false (by simp [hno.valid]) hdue, .inr hno⟩
  · obtain rfl := eq_resetEdge_of_step h hr
    exact ⟨rfl, rfl, rfl⟩

/-! ### `BUSY` (R27) -/

/-- R27: `PH` leaves `IDLE` exactly as a scan starts, and comes back to it exactly as step 15 ends. -/
theorem EdgeTo.idle_iff {s t : State} (h : EdgeTo s t) :
    ((s.ph = .idle ∧ t.ph ≠ .idle) ↔ s.StartsScan) ∧ ((s.ph ≠ .idle ∧ t.ph = .idle) ↔ (s.ph = .writ ∧ s.i = 15)) := by
  cases h with
  | idle hp hv => simp [hp, not_startsScan_of_not_accepts (not_accepts_of_quiet hv)]
  | answer ha hans => simp [ha.1, hans.not_startsScan ha]
  | scan ha hc hop => simp [ha.1, ha.startsScan_iff, hc, hop]
  | seta ha _ hop _ | rdo ha _ hop => simp [ha.1, ha.startsScan_iff, hop]
  | addr hp | count hp _ | sample hp _ => simp [hp, not_startsScan_of_busy]
  | writ hp hi _ | last hp hi _ =>
    have hns : ¬ s.StartsScan := not_startsScan_of_busy (by simp [hp])
    simp_all

/-- Settles O32, from the phase before and after each kind of edge. -/
theorem busyRisesAndFallsWithTheScan : Obligations.BusyRisesAndFallsWithTheScan := by
  refine ⟨fun s => ⟨busy_eq_true_iff s, cmdReady_eq_true_iff s⟩, fun s t h hr => ?_, fun s t h hr => ?_, fun p => rfl⟩
  · simpa [State.outputs, State.busy] using (edgeTo_of_step h hr).idle_iff
  · obtain rfl := eq_resetEdge_of_step h hr
    rfl

/-! ### The board port (R22) -/

/-- Settles O53, by the packed view's bits. -/
theorem boardPortIsThePackedView : Obligations.BoardPortIsThePackedView :=
  fun s => ⟨rfl, fun r c => ⟨rfl, packBoard_getLsbD s.brd r c⟩⟩

end Sys2Proof.Machine
end

section
/-! PROOFS. The board queries of file 44: the response of each in bounds, and the agreement of the views of a cell. -/

namespace Sys2Proof.Machine

open Sys2Proof

/-! ### The answers in bounds (R141, R143) -/

/-- R141: `GETSQ x, y` answers the stored bit of cell `(7 - y, x)`, with no inversion. -/
theorem exec_getsq_coord {s : State} (hp : s.ph = .idle) (hc : s.cfgErr = false) (x y : Coord) :
    exec (.getsq x.val y.val) s = .next (respond (edgeDefaults s) .ok (bitByte (cellRead s.brd (flip y) x))) := by
  simp only [exec, execGetsq, acceptCommand_of_ok hp hc, boardOperand?_coord, storageCell]

/-- R143: `GETROW r` answers storage row `r` whole, with no flip. -/
theorem exec_getrow_coord {s : State} (hp : s.ph = .idle) (hc : s.cfgErr = false) (r : Coord) :
    exec (.getrow r.val) s = .next (respond (edgeDefaults s) .ok s.brd[r]) := by
  simp only [exec, execGetrow, acceptCommand_of_ok hp hc, boardOperand?_coord]

/-! ### The views of a cell (R55) -/

/-- Settles O15: all three reads are of cell `(7 - y, x)` of one board, the port's by the packed view's bits. -/
theorem viewsOfACellAgree : Obligations.ViewsOfACellAgree := by
  intro s u v x y hs hsc hu huc hub hvb
  have hport : v.outputs.board.getLsbD (8 * (7 - y.val) + x.val) = cellRead s.brd (flip y) x := by
    rw [← hvb]
    exact packBoard_getLsbD v.brd (flip y) x
  have hrow : u.brd[flip y].getLsbD x = cellRead s.brd (flip y) x := by
    rw [hub]
    rfl
  refine ⟨_, _, exec_getsq_coord hs hsc x y, exec_getrow_coord hu huc (flip y), rfl, rfl, ?_, ?_⟩
  · exact congrArg bitByte hrow.symm
  · exact hrow.trans hport.symm

end Sys2Proof.Machine
end

section
/-! PROOFS. The encoding of file 30: the opcode map, and the answer to a word whose opcode has no command. -/

namespace Sys2Proof.Machine

open Sys2Proof

/-! ### The opcode map (R74) -/

/-- R72: the value of a 32-bit field is an operand that fits one. -/
@[simp] theorem operandFits_toNat (v : BitVec 32) : operandFits v.toNat = true :=
  decide_eq_true v.isLt

/-- R73: what is decoded has an encoding, and its opcode is the word's. -/
theorem wellFormed_and_opcode_of_decode {w : CommandWord} {i : Instr} (h : decode w = .ok i) :
    i.wellFormed = true ∧ i.opcode = w.op := by
  rcases op_cases w with hop | hop | hop | hop | hop | hop
  · obtain rfl : .scan = i := Except.ok.inj ((decode_of_op_1 hop).symm.trans h)
    exact ⟨rfl, hop.symm⟩
  · obtain rfl : .getsq _ _ = i := Except.ok.inj ((decode_of_op_2 hop).symm.trans h)
    exact ⟨by simp [Instr.wellFormed], hop.symm⟩
  · obtain rfl : .getrow _ = i := Except.ok.inj ((decode_of_op_3 hop).symm.trans h)
    exact ⟨operandFits_toNat w.x, hop.symm⟩
  · obtain rfl : .seta _ = i := Except.ok.inj ((decode_of_op_4 hop).symm.trans h)
    exact ⟨operandFits_toNat w.x, hop.symm⟩
  · obtain rfl : .rdo = i := Except.ok.inj ((decode_of_op_5 hop).symm.trans h)
    exact ⟨rfl, hop.symm⟩
  · cases (decode_of_illegal hop).symm.trans h

/-- Settles O3, by what the decoder answers for each opcode. -/
theorem opcodeMapIsComplete : Obligations.OpcodeMapIsComplete :=
  fun _ => ⟨decode_of_op_1, decode_of_op_2, decode_of_op_3, decode_of_op_4, decode_of_op_5, decode_of_illegal,
    fun _ => wellFormed_and_opcode_of_decode⟩

/-! ### An answer and its frame (R12, R156) -/

theorem answered_respond (d : State) (st : Status) (v : BitVec 8) : Answered (respond d st v) st v :=
  ⟨rfl, rfl, rfl⟩

/-- A response on top of an edge's defaults changes nothing but the response registers. -/
theorem onlyResponseChanged_respond (s : State) (st : Status) (v : BitVec 8) :
    OnlyResponseChanged s (respond (edgeDefaults s) st v) := by
  constructor
  case toOneEdgeLater => constructor <;> rfl
  all_goals rfl

/-! ### Illegal words (R75, R158) -/

/-- R30: the step that accepts a word is the acceptance of that word. -/
theorem State.Accepts.step_eq {s : State} {w : CommandWord} (ha : s.Accepts w) : step s = acceptWord w s := by
  obtain ⟨hp, hr, hv, hw⟩ := ha
  simp [step, clockEdge, hr, hv, hw, (cmdReady_eq_true_iff s).2 hp]

/-- R75, R158: an accepted illegal word only takes the error, `CONFIG_ERROR` before `ILLEGAL_COMMAND`. -/
theorem step_of_illegal {s : State} {w : CommandWord} (ha : s.Accepts w) (hop : w.op = 0x0 ∨ 0x6 ≤ w.op) :
    step s = .next (raiseError (edgeDefaults s) (if s.cfgErr then .configError else .illegalCommand)) := by
  rw [ha.step_eq]
  cases hc : s.cfgErr with
  | true => exact acceptWord_of_cfgErr ha.1 hc w
  | false =>
    rw [acceptWord_of_illegal (decode_of_illegal hop)]
    exact acceptCommand_of_ok ha.1 hc _

/-- Settles O7: an accepted illegal word only takes an error, and an error only writes the response registers. -/
theorem illegalWordsAreAnswered : Obligations.IllegalWordsAreAnswered := by
  refine ⟨fun s w ha hop => ⟨_, step_of_illegal ha hop, ?_, ?_⟩, by decide⟩
  · exact answered_respond _ _ _
  · exact onlyResponseChanged_respond s _ 0

end Sys2Proof.Machine
end

section
/-! PROOFS. The Gray addresses of file 40: neighbouring addresses differ in one bit, and what the `ADDR` edge of a scan
step makes of that on the select lines. -/

namespace Sys2Proof.Machine

open Sys2Proof

/-! ### Neighbouring addresses (R94) -/

theorem gray_zero : gray 0 = 0 := by decide

/-- R94: from index `i` to `i + 1` the lowest set bit of `i + 1` changes in the address. -/
theorem gray_xor_gray_succ : ∀ i : Addr, i ≠ 15 → gray i ^^^ gray (i + 1) = (i + 1) &&& -(i + 1) := by decide

/-- `v AND -v` is the lowest set bit of `v`, one bit. -/
theorem popcount4_and_neg : ∀ v : BitVec 4, v ≠ 0 → popcount4 (v &&& -v) = 1 := by decide

/-- R94: inside a scan one bit changes. -/
theorem popcount4_gray_xor_gray_succ {i : Addr} (h : i ≠ 15) : popcount4 (gray i ^^^ gray (i + 1)) = 1 := by
  have hne : i + 1 ≠ 0 := fun h0 => h (eq_neg_of_add_eq_zero_left h0)
  rw [gray_xor_gray_succ i h, popcount4_and_neg _ hne]

/-- R94, on the step before: the address of a later step differs from its predecessor's in one bit. -/
theorem popcount4_gray_pred_xor_gray {i : Addr} (h : i ≠ 0) : popcount4 (gray (i - 1) ^^^ gray i) = 1 := by
  have hne : i - 1 ≠ 15 := fun h15 => h ((sub_eq_iff_eq_add.1 h15).trans rfl)
  simpa only [sub_add_cancel] using popcount4_gray_xor_gray_succ hne

/-! ### The select lines at the `ADDR` edge -/

/-- R30, R190: with `RST = 0` a step of a scan in progress is the sequencer's, whatever the host offers. -/
theorem step_of_busy {s : State} (hp : s.ph ≠ .idle) (hr : (s.hostAt 0).rst = false) : step s = sequencerEdge s := by
  rcases step_cases s with ⟨hr', -⟩ | ⟨-, hp', -⟩ | ⟨-, hp', -⟩ | ⟨-, -, e⟩
  · simp [hr] at hr'
  · exact absurd hp' hp
  · exact absurd hp' hp
  · exact e

theorem step_of_addr {s : State} (hp : s.ph = .addr) (hr : (s.hostAt 0).rst = false) : step s = .next (addrEdge s) :=
  (step_of_busy (by simp [hp]) hr).trans (sequencerEdge_of_addr hp)

@[simp] theorem addrEdge_sel (s : State) : (addrEdge s).sel = gray s.i := rfl

/-- The first step of a scan drives address 0, so every line that was up changes. -/
theorem sel_xor_addrEdge_sel_of_first {s : State} (hi : s.i = 0) : s.sel ^^^ (addrEdge s).sel = s.sel := by
  rw [addrEdge_sel, hi, gray_zero]
  exact BitVec.xor_zero

/-- Settles O26: in a later step the invariant gives the address of the step before, and neighbours differ in one bit;
in the first step the address is 0. -/
theorem oneSelectLinePerStep : Obligations.OneSelectLinePerStep := by
  refine ⟨fun i h => ⟨popcount4_gray_xor_gray_succ h, gray_xor_gray_succ i h⟩, by decide, fun s hinv hp hr =>
    ⟨addrEdge s, step_of_addr hp hr, fun hi => ?_, fun hi => ?_, fun hi hsel => ?_⟩⟩
  · rw [hinv.addrSel hp hi, addrEdge_sel, popcount4_gray_pred_xor_gray hi]
  · rw [sel_xor_addrEdge_sel_of_first hi]
  · rw [sel_xor_addrEdge_sel_of_first hi, hsel]
    decide

end Sys2Proof.Machine
end

section
/-! PROOFS. The mapping table of file 42: the layout of a ROM word, `Valid` as a bijection of the channels onto the
cells, and the mask computation of `Valid`. -/

namespace Sys2Proof.Machine

open Sys2Proof

/-! ### The layout of a ROM word (R78) -/

/-- Bit `b` of element `k` is bit `4k + b` of the word. -/
theorem romElement_getLsbD (w : RomWord) (k : Fin 8) (b : Fin 4) :
    (romElement w k).getLsbD b = w.getLsbD (4 * k.val + b.val) := by
  simp [romElement]

/-- The pair of line `j` is element `2j`, the row, and element `2j + 1`, the column. -/
theorem mapPair_eq_romElement (m : MapTable) (i : Addr) (j : Line) :
    mapPair m i j =
      (romElement (romRead m i) ⟨2 * j.val, by omega⟩, romElement (romRead m i) ⟨2 * j.val + 1, by omega⟩) := by
  simp only [mapPair, romPair, romElement, show 4 * (2 * j.val) = 8 * j.val by omega,
    show 4 * (2 * j.val + 1) = 8 * j.val + 4 by omega]

/-! ### Pairs in range -/

/-- R118 (a) for one pair: it is two coordinates. -/
def PairInRange (p : BitVec 4 × BitVec 4) : Prop := p.1 ≤ 7 ∧ p.2 ≤ 7

/-- Every element of a word is the row or the column of one of its lines, so R118 (a) is about the pairs. -/
theorem rangeOk_iff_pairInRange (m : MapTable) : rangeOk m = true ↔ ∀ i j, PairInRange (mapPair m i j) := by
  refine ⟨mapPair_le, fun h => (rangeOk_iff m).2 fun i k => ?_⟩
  have hk := h i ⟨k.val / 2, by omega⟩
  rw [mapPair_eq_romElement] at hk
  obtain ⟨hrow, hcol⟩ := hk
  rcases Nat.mod_two_eq_zero_or_one k.val with h0 | h1
  · rwa [show k = ⟨2 * (k.val / 2), by omega⟩ from Fin.ext (by simp only; omega)]
  · rwa [show k = ⟨2 * (k.val / 2) + 1, by omega⟩ from Fin.ext (by simp only; omega)]

/-- The cell a pair in range names. -/
def pairCell (p : BitVec 4 × BitVec 4) : Coord × Coord := (Fin.ofNat 8 p.1.toNat, Fin.ofNat 8 p.2.toNat)

theorem eq_ofNat_iff_of_le :
    ∀ (v : BitVec 4) (r : Coord), v ≤ 7 → (v = BitVec.ofNat 4 r.val ↔ Fin.ofNat 8 v.toNat = r) := by
  decide

theorem PairInRange.eq_iff {p : BitVec 4 × BitVec 4} (h : PairInRange p) (r c : Coord) :
    p = (BitVec.ofNat 4 r.val, BitVec.ofNat 4 c.val) ↔ pairCell p = (r, c) := by
  rw [Prod.ext_iff, eq_ofNat_iff_of_le _ _ h.1, eq_ofNat_iff_of_le _ _ h.2, pairCell, Prod.mk.injEq]

/-- Distinct pairs in range name distinct cells. -/
theorem PairInRange.pairCell_inj {p q : BitVec 4 × BitVec 4} (hp : PairInRange p) (hq : PairInRange q) :
    pairCell p = pairCell q ↔ p = q := by
  refine ⟨fun h => ?_, congrArg pairCell⟩
  exact ((hp.eq_iff _ _).2 h).trans ((hq.eq_iff _ _).2 rfl).symm

/-! ### A valid table is a bijection (R118) -/

/-- R118: `Valid` is its two checks. -/
theorem validMap_iff (m : MapTable) :
    validMap m = true ↔ (∀ (i : Addr) (k : Fin 8), romElement (romRead m i) k ≤ 7) ∧
      ∀ (i i' : Addr) (j j' : Line), mapPair m i j = mapPair m i' j' → i = i' ∧ j = j' := by
  rw [validMap, Bool.and_eq_true, rangeOk_iff, injectiveOk_iff]

/-- The cell a channel of a table in range names. -/
def channelCell (m : MapTable) (ch : Addr × Line) : Coord × Coord := pairCell (mapPair m ch.1 ch.2)

/-- There are as many channels as cells: number both from 0 to 63. -/
def channelEquivCell : Addr × Line ≃ Coord × Coord :=
  (BitVec.equivFin.toEquiv.prodCongr (Equiv.refl Line)).trans
    (finProdFinEquiv.trans (finProdFinEquiv (m := 8) (n := 8)).symm)

theorem channelCell_injective_iff {m : MapTable} (h : rangeOk m = true) :
    Function.Injective (channelCell m) ↔
      ∀ (i i' : Addr) (j j' : Line), mapPair m i j = mapPair m i' j' → i = i' ∧ j = j' := by
  have hr := (rangeOk_iff_pairInRange m).1 h
  simp only [Function.Injective, Prod.forall, channelCell, (hr _ _).pairCell_inj (hr _ _), Prod.mk.injEq]
  exact ⟨fun hi i i' j j' => hi i j i' j', fun hi i j i' j' => hi i i' j j'⟩

theorem channelCell_bijective_iff {m : MapTable} (h : rangeOk m = true) :
    Function.Bijective (channelCell m) ↔ ∀ r c : Coord,
      ∃! ch : Addr × Line, mapPair m ch.1 ch.2 = (BitVec.ofNat 4 r.val, BitVec.ofNat 4 c.val) := by
  have hr := (rangeOk_iff_pairInRange m).1 h
  simp only [Function.bijective_iff_existsUnique, Prod.forall, (hr _ _).eq_iff, channelCell]

/-- Given the range, distinct pairs are one channel per cell: 64 channels go into 64 cells. -/
theorem mapPair_injective_iff_existsUnique {m : MapTable} (h : rangeOk m = true) :
    (∀ (i i' : Addr) (j j' : Line), mapPair m i j = mapPair m i' j' → i = i' ∧ j = j') ↔ ∀ r c : Coord,
      ∃! ch : Addr × Line, mapPair m ch.1 ch.2 = (BitVec.ofNat 4 r.val, BitVec.ofNat 4 c.val) := by
  have hsurj := Finite.injective_iff_surjective_of_equiv (f := channelCell m) channelEquivCell
  rw [← channelCell_injective_iff h, ← channelCell_bijective_iff h]
  exact ⟨fun hi => ⟨hi, hsurj.1 hi⟩, fun hb => hb.1⟩

/-- `CFG_ERR = NOT Valid(MAP)` on its port (R118). -/
theorem outputs_cfgErr_eq_true_iff (s : State) : s.outputs.cfgErr = true ↔ ¬ validMap s.params.map = true := by
  rw [← cfgErr_eq_false_iff, Bool.not_eq_false]
  rfl

/-- Settles O38: the two checks of `Valid` say range and injectivity, and an injection of 64 channels into 64 cells is
a bijection. -/
theorem validTableIsABijection : Obligations.ValidTableIsABijection := by
  intro m
  refine ⟨fun i => ⟨rfl, romElement_getLsbD _, mapPair_eq_romElement m i⟩, validMap_iff m, fun h => ?_, ?_⟩
  · exact mapPair_injective_iff_existsUnique ((rangeOk_iff m).2 h)
  · rintro s rfl
    exact (outputs_cfgErr_eq_true_iff s).trans (not_congr (validMap_iff _))

/-! ### The mask computation of `Valid` (R119) -/

/-- The mask's bit for a pair, `8r + c`. -/
def pairBit (p : BitVec 4 × BitVec 4) : Nat := 8 * p.1.toNat + p.2.toNat

theorem PairInRange.toNat_le {p : BitVec 4 × BitVec 4} (h : PairInRange p) : p.1.toNat ≤ 7 ∧ p.2.toNat ≤ 7 :=
  ⟨BitVec.le_def.1 h.1, BitVec.le_def.1 h.2⟩

theorem PairInRange.pairBit_lt {p : BitVec 4 × BitVec 4} (h : PairInRange p) : pairBit p < 64 := by
  have := h.toNat_le
  unfold pairBit
  omega

theorem PairInRange.pairBit_inj {p q : BitVec 4 × BitVec 4} (hp : PairInRange p) (hq : PairInRange q) :
    pairBit p = pairBit q ↔ p = q := by
  refine ⟨fun h => ?_, congrArg pairBit⟩
  have := hp.toNat_le
  have := hq.toNat_le
  unfold pairBit at h
  exact Prod.ext (BitVec.eq_of_toNat_eq (by omega)) (BitVec.eq_of_toNat_eq (by omega))

/-- A turn of the loop on a pair in range and not seen before sets its bit. -/
theorem seenStep_of_fresh {acc : BitVec 64 × Bool} {p : BitVec 4 × BitVec 4} (hp : PairInRange p)
    (hf : acc.1.getLsbD (pairBit p) = false) : seenStep acc p = (acc.1 ||| 1#64 <<< pairBit p, acc.2) := by
  obtain ⟨hr, hc⟩ := hp
  refine if_neg ?_
  rintro (h | h | h)
  · exact absurd hr (BitVec.not_le.2 h)
  · exact absurd hc (BitVec.not_le.2 h)
  · exact absurd (hf.symm.trans h) Bool.false_ne_true

/-- A turn on any other pair only clears the flag. -/
theorem seenStep_of_not_fresh {acc : BitVec 64 × Bool} {p : BitVec 4 × BitVec 4}
    (h : ¬ (PairInRange p ∧ acc.1.getLsbD (pairBit p) = false)) : seenStep acc p = (acc.1, false) := by
  refine if_pos ?_
  by_contra hn
  simp only [not_or, BitVec.not_lt, Bool.not_eq_true] at hn
  obtain ⟨hr, hc, hf⟩ := hn
  exact h ⟨⟨hr, hc⟩, hf⟩

/-- The flag stays up exactly over a pair in range and not seen before. -/
theorem seenStep_snd_iff (acc : BitVec 64 × Bool) (p : BitVec 4 × BitVec 4) :
    (seenStep acc p).2 = true ↔ acc.2 = true ∧ PairInRange p ∧ acc.1.getLsbD (pairBit p) = false := by
  by_cases h : PairInRange p ∧ acc.1.getLsbD (pairBit p) = false
  · simp [seenStep_of_fresh h.1 h.2, h]
  · simp [seenStep_of_not_fresh h, h]

/-- A turn of the loop keeps every bit and sets that of a pair in range. -/
theorem seenStep_getLsbD_iff (acc : BitVec 64 × Bool) (p : BitVec 4 × BitVec 4) (n : Nat) :
    (seenStep acc p).1.getLsbD n = true ↔ acc.1.getLsbD n = true ∨ PairInRange p ∧ pairBit p = n := by
  by_cases h : PairInRange p ∧ acc.1.getLsbD (pairBit p) = false
  · obtain ⟨hp, hf⟩ := h
    have hlt := hp.pairBit_lt
    have hbit : (1#64 <<< pairBit p).getLsbD n = true ↔ pairBit p = n := by
      simp only [BitVec.getLsbD_shiftLeft, BitVec.getLsbD_one, Bool.and_eq_true, Bool.not_eq_true', decide_eq_true_iff,
        decide_eq_false_iff_not]
      omega
    rw [seenStep_of_fresh hp hf, BitVec.getLsbD_or, Bool.or_eq_true, hbit, and_iff_right hp]
  · rw [seenStep_of_not_fresh h]
    refine ⟨.inl, ?_⟩
    rintro (hn | ⟨hp, rfl⟩)
    · exact hn
    · simpa [hp] using h

/-- The loop's flag is up at the end exactly over pairs in range, not seen before and pairwise distinct. -/
theorem foldl_seenStep_snd_iff (ps : List (BitVec 4 × BitVec 4)) (acc : BitVec 64 × Bool) :
    (ps.foldl seenStep acc).2 = true ↔
      acc.2 = true ∧ (∀ p ∈ ps, PairInRange p ∧ acc.1.getLsbD (pairBit p) = false) ∧ ps.Nodup := by
  induction ps generalizing acc with
  | nil => simp
  | cons p ps ih =>
    have hstep (hp : PairInRange p) (q) :
        PairInRange q ∧ (seenStep acc p).1.getLsbD (pairBit q) = false ↔
          (PairInRange q ∧ acc.1.getLsbD (pairBit q) = false) ∧ p ≠ q := by
      rw [and_assoc]
      refine and_congr_right fun hq => ?_
      rw [← Bool.not_eq_true, seenStep_getLsbD_iff, and_iff_right hp, hp.pairBit_inj hq, not_or, Bool.not_eq_true]
    rw [List.foldl_cons, ih, seenStep_snd_iff, List.forall_mem_cons, List.nodup_cons]
    by_cases hp : PairInRange p
    · simp only [hstep hp, forall_and, List.forall_mem_ne]
      tauto
    · simp [hp]

/-- The mask at the end holds the bits it began with and those of the pairs in range. -/
theorem foldl_seenStep_getLsbD_iff (ps : List (BitVec 4 × BitVec 4)) (acc : BitVec 64 × Bool) (n : Nat) :
    (ps.foldl seenStep acc).1.getLsbD n = true ↔
      acc.1.getLsbD n = true ∨ ∃ p ∈ ps, PairInRange p ∧ pairBit p = n := by
  induction ps generalizing acc with
  | nil => simp
  | cons p ps ih => simp [ih, seenStep_getLsbD_iff, or_assoc]

theorem forall_mem_mapPairs {m : MapTable} {P : BitVec 4 × BitVec 4 → Prop} :
    (∀ p ∈ mapPairs m, P p) ↔ ∀ i j, P (mapPair m i j) := by
  rw [mapPairs, List.forall_mem_map]
  exact ⟨fun h i j => h (i, j) (mem_channels i j), fun h ch _ => h ch.1 ch.2⟩

theorem mapPair_mem_mapPairs (m : MapTable) (i : Addr) (j : Line) : mapPair m i j ∈ mapPairs m :=
  forall_mem_mapPairs.1 (fun _ => id) i j

/-- R119: from an empty mask the loop checks R118 (a) and (b). -/
theorem validBySeen_eq_validMap (m : MapTable) : validBySeen m = validMap m := by
  rw [Bool.eq_iff_iff, validBySeen, seenScan, foldl_seenStep_snd_iff, validMap, Bool.and_eq_true,
    rangeOk_iff_pairInRange, injectiveOk, decide_eq_true_iff, ← forall_mem_mapPairs]
  simp

/-- In a valid table the channel that names cell `(r, c)` sets bit `8r + c`, so every bit is set. -/
theorem seenScan_fst_of_validMap {m : MapTable} (h : validMap m = true) : (seenScan m).1 = BitVec.allOnes 64 := by
  have hr := rangeOk_of_validMap h
  have hcover := (mapPair_injective_iff_existsUnique hr).1 ((injectiveOk_iff m).1 (injectiveOk_of_validMap h))
  refine BitVec.eq_of_getLsbD_eq fun n hn => ?_
  obtain ⟨⟨i, j⟩, hch, -⟩ := hcover ⟨n / 8, by omega⟩ ⟨n % 8, by omega⟩
  rw [BitVec.getLsbD_allOnes, decide_eq_true hn, seenScan, foldl_seenStep_getLsbD_iff]
  refine .inr ⟨mapPair m i j, mapPair_mem_mapPairs m i j, mapPair_le hr i j, ?_⟩
  rw [hch, pairBit, BitVec.toNat_ofNat, BitVec.toNat_ofNat]
  simp only
  omega

/-- Settles O39: the flag says range and distinctness, and a valid table names every cell. -/
theorem seenMaskComputesValid : Obligations.SeenMaskComputesValid := by
  intro m
  rw [validBySeen_eq_validMap]
  exact ⟨rfl, seenScan_fst_of_validMap⟩

end Sys2Proof.Machine
end

section
/-! PROOFS. The scan of file 43 as a whole: where the edges of one scan step lead, the board after each step, and the
completed scan; from it what a static environment makes of a scan. -/

namespace Sys2Proof.Machine

open Sys2Proof

/-! ### The schedules after several edges -/

/-- `n` clock edges lie between `s` and `t`, and `MAP` and `SETTLE_CYCLES` are the same: the model's own fields. -/
structure EdgesLater (n : Nat) (s t : State) : Prop where
  params : t.params = s.params
  edge : t.edge = s.edge + n
  hostIn : t.hostIn = s.hostIn.drop n
  env : t.env = s.env.drop n

theorem OneEdgeLater.edgesLater {s t : State} (h : OneEdgeLater s t) : EdgesLater 1 s t :=
  ⟨h.params, h.edge, by simp [h.hostIn], by simp [h.env]⟩

theorem EdgesLater.trans {m n : Nat} {s t u : State} (h : EdgesLater m s t) (h' : EdgesLater n t u) :
    EdgesLater (m + n) s u where
  params := h'.params.trans h.params
  edge := by rw [h'.edge, h.edge, Nat.add_assoc]
  hostIn := by rw [h'.hostIn, h.hostIn, List.drop_drop]
  env := by rw [h'.env, h.env, List.drop_drop]

section
variable {n : Nat} {s t : State}

theorem EdgesLater.hostAt (h : EdgesLater n s t) (k : Nat) : t.hostAt k = s.hostAt (n + k) := by
  simp [State.hostAt, h.hostIn]

theorem EdgesLater.envAt (h : EdgesLater n s t) (k : Nat) (a : Addr) : t.envAt k a = s.envAt (n + k) a := by
  simp [State.envAt, h.env, h.edge, show s.edge + n + 1 + k = s.edge + 1 + (n + k) by omega]

theorem EdgesLater.cfgErr (h : EdgesLater n s t) : t.cfgErr = s.cfgErr := by
  simp [State.cfgErr, h.params]

theorem EdgesLater.noResetFor {m k : Nat} (h : EdgesLater n s t) (hr : s.NoResetFor m) (hle : n + k ≤ m) :
    t.NoResetFor k := by
  intro i hi
  rw [h.hostAt]
  exact hr _ (by omega)

theorem EdgesLater.rst_eq_false {m : Nat} (h : EdgesLater n s t) (hr : s.NoResetFor m) (hlt : n < m) :
    (t.hostAt 0).rst = false := by
  rw [h.hostAt]
  exact hr n hlt

theorem EdgesLater.staticFor {stub : Stub} {m k : Nat} (h : EdgesLater n s t) (hs : s.StaticFor stub m)
    (hle : n + k ≤ m) : t.StaticFor stub k := by
  intro i hi a
  rw [h.envAt]
  exact hs _ (by omega) a

end

/-- A run and one step more. -/
theorem runEdges_succ_of_run {n : Nat} {s t u : State} (h : runEdges n s = .next t) (h' : step t = .next u) :
    runEdges (n + 1) s = .next u := by
  rw [runEdges_add h, runEdges_succ_of_step h', runEdges_zero]

/-! ### `uNEXT` (R93) -/

section
variable (d : State)

@[simp] theorem uNext_brd : (uNext d).brd = d.brd := by unfold uNext; split <;> rfl
@[simp] theorem uNext_sel : (uNext d).sel = d.sel := by unfold uNext; split <;> rfl
@[simp] theorem uNext_smp : (uNext d).smp = d.smp := by unfold uNext; split <;> rfl
@[simp] theorem uNext_age : (uNext d).age = d.age := by unfold uNext; split <;> rfl
@[simp] theorem uNext_params : (uNext d).params = d.params := by unfold uNext; split <;> rfl
@[simp] theorem uNext_edge : (uNext d).edge = d.edge := by unfold uNext; split <;> rfl
@[simp] theorem uNext_hostIn : (uNext d).hostIn = d.hostIn := by unfold uNext; split <;> rfl
@[simp] theorem uNext_env : (uNext d).env = d.env := by unfold uNext; split <;> rfl
@[simp] theorem uNext_ph : (uNext d).ph = if d.i = 15 then .idle else .addr := by unfold uNext; split <;> rfl

/-- R93: `I` advances modulo 16 in both branches. -/
@[simp] theorem uNext_i : (uNext d).i = d.i + 1 := by
  unfold uNext
  split
  next h => rw [h]; rfl
  next => rfl

end

/-! ### The edges of one scan step (R126, R190, R191) -/

/-- `t` is the state `n` edges after the `ADDR` edge of a scan step that begins in `s`, while the step still waits. -/
structure ScanWaits (s : State) (n : Nat) (t : State) : Prop where
  later : EdgesLater (n + 1) s t
  ph : t.ph = .wait
  sel : t.sel = gray s.i
  i : t.i = s.i
  age : t.age = n
  brd : t.brd = s.brd
  smp : t.smp = s.smp

/-- `t` is the state after the sampling edge of the scan step that begins in `s`. -/
structure ScanSampled (s t : State) : Prop where
  later : EdgesLater (s.params.settleCycles + 2) s t
  ph : t.ph = .writ
  sel : t.sel = gray s.i
  i : t.i = s.i
  age : t.age = s.params.settleCycles
  brd : t.brd = s.brd
  smp : t.smp = s.envAt (s.params.settleCycles + 1) (gray s.i)

/-- `t` is the state after the `WRIT` edge of the scan step that begins in `s`. -/
structure ScanStepDone (s t : State) : Prop where
  later : EdgesLater (stepEdges s.params) s t
  ph : t.ph = if s.i = 15 then .idle else .addr
  sel : t.sel = gray s.i
  i : t.i = s.i + 1
  age : t.age = s.params.settleCycles
  smp : t.smp = s.envAt (s.params.settleCycles + 1) (gray s.i)
  answered : s.i = 15 → Answered t .ok 0
  named : ∀ (j : Line) (r c : Coord), mapPair s.params.map s.i j = (BitVec.ofNat 4 r.val, BitVec.ofNat 4 c.val) →
    t.cell r c = !(s.envAt (s.params.settleCycles + 1) (gray s.i)).getLsbD j
  other : ∀ r c : Coord, (∀ j : Line, mapPair s.params.map s.i j ≠ (BitVec.ofNat 4 r.val, BitVec.ofNat 4 c.val)) →
    t.cell r c = s.cell r c

theorem step_of_wait {s : State} (hp : s.ph = .wait) (hr : (s.hostAt 0).rst = false) : step s = .next (waitEdge s) :=
  (step_of_busy (by simp [hp]) hr).trans (sequencerEdge_of_wait hp)

theorem step_of_writ {s : State} (hp : s.ph = .writ) (hr : (s.hostAt 0).rst = false) : step s = writEdge s :=
  (step_of_busy (by simp [hp]) hr).trans (sequencerEdge_of_writ hp)

theorem writEdge_of_writeLines {s : State} {b : Board}
    (hb : writeLines (romRead s.params.map s.i) s.smp lines s.brd = some b) :
    writEdge s = .next (uNext (setBoard (edgeDefaults s) b)) := by
  simp [writEdge, hb]

theorem oneEdgeLater_addrEdge (s : State) : OneEdgeLater s (addrEdge s) := by constructor <;> rfl

theorem oneEdgeLater_edgeDefaults (s : State) : OneEdgeLater s (edgeDefaults s) := by constructor <;> rfl

theorem oneEdgeLater_sample (s : State) (v : Sample) :
    OneEdgeLater s (setPhase (uRdo (edgeDefaults s) v) .writ) := by constructor <;> rfl

theorem oneEdgeLater_uNext (s : State) (b : Board) : OneEdgeLater s (uNext (setBoard (edgeDefaults s) b)) := by
  constructor <;> simp

section
variable {s t : State}

/-- The `ADDR` edge and one more edge for each count of `AGE`. -/
theorem exists_scanWaits (hp : s.ph = .addr) {n : Nat} (hn : n ≤ s.params.settleCycles) (hr : s.NoResetFor (n + 1)) :
    ∃ t, runEdges (n + 1) s = .next t ∧ ScanWaits s n t := by
  induction n with
  | zero =>
    exact ⟨addrEdge s, runEdges_succ_of_run rfl (step_of_addr hp (hr 0 (by omega))),
      (oneEdgeLater_addrEdge s).edgesLater, rfl, rfl, rfl, rfl, rfl, rfl⟩
  | succ n ih =>
    obtain ⟨t, ht, hw⟩ := ih (by omega) fun k hk => hr k (by omega)
    have hrt : (t.hostAt 0).rst = false := hw.later.rst_eq_false hr (Nat.lt_succ_self _)
    have hlt : t.age < t.params.settleCycles := by
      rw [hw.age, hw.later.params]
      omega
    have hstep : step t = .next (edgeDefaults t) := by
      rw [step_of_wait hw.ph hrt, waitEdge_of_unsettled hlt.ne]
    refine ⟨edgeDefaults t, runEdges_succ_of_run ht hstep,
      hw.later.trans (oneEdgeLater_edgeDefaults t).edgesLater, hw.ph, hw.sel, hw.i, ?_, hw.brd, hw.smp⟩
    rw [edgeDefaults_age, ageCount_of_lt hlt, hw.age]

/-- R127: once `AGE` reads `SETTLE_CYCLES`, the settled sample of the step's address is taken. -/
theorem exists_scanSampled (hp : s.ph = .addr) (hr : s.NoResetFor (s.params.settleCycles + 2)) :
    ∃ t, runEdges (s.params.settleCycles + 2) s = .next t ∧ ScanSampled s t := by
  obtain ⟨t, ht, hw⟩ := exists_scanWaits hp (Nat.le_refl _) fun k hk => hr k (by omega)
  have hrt : (t.hostAt 0).rst = false := hw.later.rst_eq_false hr (Nat.lt_succ_self _)
  have hage : t.age = t.params.settleCycles := by rw [hw.age, hw.later.params]
  have hstep := step_of_wait hw.ph hrt
  rw [waitEdge_of_settled hage] at hstep
  exact ⟨_, runEdges_succ_of_run ht hstep,
    { later := hw.later.trans (oneEdgeLater_sample t _).edgesLater
      ph := rfl
      sel := hw.sel
      i := hw.i
      age := by simp [hage, ageCount_of_ge, hw.later.params]
      brd := hw.brd
      smp := by simp [hw.later.envAt, hw.sel] }⟩

/-- One scan step on a valid table, from its `ADDR` edge to its `WRIT` edge. -/
theorem exists_scanStepDone (hp : s.ph = .addr) (hc : s.cfgErr = false) (hr : s.NoResetFor (stepEdges s.params)) :
    ∃ t, runEdges (stepEdges s.params) s = .next t ∧ ScanStepDone s t := by
  obtain ⟨t, ht, hs⟩ := exists_scanSampled hp fun k hk => hr k (by unfold stepEdges; omega)
  have hrt : (t.hostAt 0).rst = false := hs.later.rst_eq_false hr (Nat.lt_succ_self _)
  have hv : validMap t.params.map = true := by rwa [← cfgErr_eq_false_iff, hs.later.cfgErr]
  obtain ⟨b, hb, hnamed, hother⟩ := writeLines_of_validMap hv t.i t.smp t.brd
  have hstep := (step_of_writ hs.ph hrt).trans (writEdge_of_writeLines hb)
  rw [hs.later.params, hs.i] at hnamed hother
  exact ⟨_, runEdges_succ_of_run ht hstep,
    { later := hs.later.trans (oneEdgeLater_uNext t b).edgesLater
      ph := by simp [hs.i]
      sel := by simp [hs.sel]
      i := by simp [hs.i]
      age := by simp [hs.age, ageCount_of_ge, hs.later.params]
      smp := by simp [hs.smp]
      answered := fun hi => by
        rw [uNext_of_last (by simp [hs.i, hi])]
        exact answered_respond _ _ _
      named := fun j r c hj => by
        rw [State.cell, uNext_brd, setBoard_brd, hnamed j r c hj, uDecode, hs.smp]
      other := fun r c hne => by
        rw [State.cell, uNext_brd, setBoard_brd, hother r c hne, hs.brd, State.cell] }⟩

end

/-! ### The board after `k` steps (R136) -/

/-- `t` is the state `k` steps into the scan that is accepted in `s`: the channels of those steps have written their
cells, the cells of the others hold what they held. -/
structure ScanProgress (s : State) (k : Nat) (t : State) : Prop where
  later : EdgesLater (1 + k * stepEdges s.params) s t
  i : t.i = BitVec.ofNat 4 k
  cells : ∀ (i : Addr) (j : Line) (r c : Coord),
    mapPair s.params.map i j = (BitVec.ofNat 4 r.val, BitVec.ofNat 4 c.val) →
    t.cell r c = if i.toNat < k then !(s.envAt (sampleEdge s.params i) (gray i)).getLsbD j else s.cell r c

section
variable {s t u : State} {k : Nat}

theorem State.StartsScan.cfgErr (hs : s.StartsScan) : s.cfgErr = false := by
  obtain ⟨_, _, _, hc⟩ := hs
  exact hc

/-- R125: the accepting edge puts the sequencer before step 0. -/
theorem exists_scanProgress_zero (hs : s.StartsScan) :
    ∃ t, runEdges 1 s = .next t ∧ t.ph = .addr ∧ ScanProgress s 0 t := by
  obtain ⟨w, ha, hop, hc⟩ := hs
  have hstep : step s = .next (setPhase (setIndex (edgeDefaults s) 0) .addr) := by
    rw [ha.step_eq, acceptWord_of_decode (decode_of_op_1 hop), exec, execScan, acceptCommand_of_ok ha.1 hc]
  refine ⟨_, runEdges_succ_of_run rfl hstep, rfl, ?_, rfl, fun i j r c _ => rfl⟩
  rw [Nat.zero_mul]
  exact OneEdgeLater.edgesLater ⟨rfl, rfl, rfl, rfl⟩

theorem ScanProgress.toNat_i (h : ScanProgress s k t) (hk : k < 16) : t.i.toNat = k := by
  rw [h.i, BitVec.toNat_ofNat, Nat.mod_eq_of_lt hk]

/-- In a valid table another step's channels name other cells, so a step keeps what the steps before it wrote. -/
theorem ScanProgress.succ (h : ScanProgress s k t) (hk : k < 16) (hc : s.cfgErr = false) (hd : ScanStepDone t u) :
    ScanProgress s (k + 1) u := by
  have hi := h.toNat_i hk
  have hinj := (injectiveOk_iff _).1 (injectiveOk_of_validMap ((cfgErr_eq_false_iff s).1 hc))
  have hnamed := hd.named
  have hother := hd.other
  rw [h.later.params] at hnamed hother
  refine ⟨?_, ?_, fun i j r c hj => ?_⟩
  · have hlater := h.later.trans hd.later
    rwa [h.later.params, Nat.add_assoc, ← Nat.succ_mul] at hlater
  · rw [hd.i, h.i]
    exact (BitVec.ofNat_add k 1).symm
  · by_cases hit : i = t.i
    · subst hit
      rw [hnamed j r c hj, h.later.envAt, if_pos (by omega), sampleEdge, hi, Nat.add_assoc _ s.params.settleCycles 1]
    · have hne : i.toNat ≠ k := fun he => hit (BitVec.eq_of_toNat_eq (he.trans hi.symm))
      rw [hother r c fun j' hj' => hit (hinj _ _ _ _ (hj.trans hj'.symm)).1, h.cells i j r c hj]
      simp only [show i.toNat < k + 1 ↔ i.toNat < k by omega]

/-- Every step of a scan is reached, at its `ADDR` phase. -/
theorem exists_scanProgress (hs : s.StartsScan) (hk : k < 16) (hr : s.NoResetFor (1 + k * stepEdges s.params)) :
    ∃ t, runEdges (1 + k * stepEdges s.params) s = .next t ∧ t.ph = .addr ∧ ScanProgress s k t := by
  induction k with
  | zero => simpa using exists_scanProgress_zero hs
  | succ k ih =>
    rw [Nat.succ_mul, ← Nat.add_assoc] at hr ⊢
    obtain ⟨t, ht, hp, hprog⟩ := ih (by omega) fun n hn => hr n (by omega)
    have hct : t.cfgErr = false := hprog.later.cfgErr.trans hs.cfgErr
    have hlast : t.i ≠ 15 := fun h15 => by
      have h15k : 15 = k := (congrArg BitVec.toNat h15).symm.trans (hprog.toNat_i (by omega))
      omega
    rw [← hprog.later.params] at hr ⊢
    obtain ⟨u, hu, hd⟩ := exists_scanStepDone hp hct (hprog.later.noResetFor hr (by rw [hprog.later.params]))
    rw [hprog.later.params] at hu ⊢
    exact ⟨u, (runEdges_add ht _).trans hu, by rw [hd.ph, if_neg hlast], hprog.succ (by omega) hs.cfgErr hd⟩

end

/-! ### The completed scan (R132) -/

/-- `t` is the state in which the scan that is accepted in `s` has ended. -/
structure ScanCompleted (s t : State) : Prop where
  later : EdgesLater (scanEdges s.params) s t
  i : t.i = 0
  ph : t.ph = .idle
  sel : t.sel = 8
  age : t.age = s.params.settleCycles
  smp : t.smp = s.envAt (sampleEdge s.params 15) 8
  answered : Answered t .ok 0
  cells : ∀ (i : Addr) (j : Line) (r c : Coord),
    mapPair s.params.map i j = (BitVec.ofNat 4 r.val, BitVec.ofNat 4 c.val) →
    t.cell r c = !(s.envAt (sampleEdge s.params i) (gray i)).getLsbD j

theorem gray_fifteen : gray 15 = 8 := by decide

/-- R193: every sample of a scan is taken before its last edge. -/
theorem sampleEdge_lt_scanEdges (p : Params) (i : Addr) : sampleEdge p i < scanEdges p := by
  have hmul : i.toNat * stepEdges p ≤ 15 * stepEdges p := Nat.mul_le_mul_right _ (Nat.le_of_lt_succ i.isLt)
  unfold stepEdges at hmul
  unfold sampleEdge scanEdges stepEdges
  omega

/-- In a valid table every cell is some channel's (R118). -/
theorem exists_channel_of_cell {m : MapTable} (h : validMap m = true) (r c : Coord) :
    ∃ (i : Addr) (j : Line), mapPair m i j = (BitVec.ofNat 4 r.val, BitVec.ofNat 4 c.val) := by
  have hinj := (injectiveOk_iff m).1 (injectiveOk_of_validMap h)
  obtain ⟨ch, hch, -⟩ := (mapPair_injective_iff_existsUnique (rangeOk_of_validMap h)).1 hinj r c
  exact ⟨ch.1, ch.2, hch⟩

section
variable {s t u : State}

/-- R125, R132, R193: fifteen steps, then the last one, which answers. -/
theorem exists_scanCompleted (hs : s.StartsScan) (hr : s.NoResetFor (scanEdges s.params)) :
    ∃ t, runEdges (scanEdges s.params) s = .next t ∧ ScanCompleted s t := by
  have hsplit : scanEdges s.params = 1 + 15 * stepEdges s.params + stepEdges s.params := by
    unfold scanEdges
    omega
  obtain ⟨t, ht, hp, hprog⟩ := exists_scanProgress hs (k := 15) (by omega) fun n hn => hr n (by omega)
  have hi : t.i = 15 := hprog.i
  have hct : t.cfgErr = false := hprog.later.cfgErr.trans hs.cfgErr
  have hrt : t.NoResetFor (stepEdges t.params) := hprog.later.noResetFor hr (by rw [hprog.later.params, hsplit])
  obtain ⟨u, hu, hd⟩ := exists_scanStepDone hp hct hrt
  have hall := hprog.succ (by omega) hs.cfgErr hd
  rw [hprog.later.params] at hu
  exact ⟨u, by rw [hsplit, runEdges_add ht, hu],
    { later := hall.later
      i := hall.i
      ph := by rw [hd.ph, if_pos hi]
      sel := by rw [hd.sel, hi, gray_fifteen]
      age := by rw [hd.age, hprog.later.params]
      smp := by
        rw [hd.smp, hi, gray_fifteen, hprog.later.params, hprog.later.envAt]
        rfl
      answered := hd.answered hi
      cells := fun i j r c hj => by rw [hall.cells i j r c hj, if_pos i.isLt] }⟩

/-! ### Scans under a static stub (R133, R134) -/

/-- Under a static stub a completed scan leaves the cell of channel `(i, j)` the inverted stub bit. -/
theorem ScanCompleted.cell_of_static {stub : Stub} (h : ScanCompleted s t)
    (hstub : s.StaticFor stub (scanEdges s.params)) {i : Addr} {j : Line} {r c : Coord}
    (hj : mapPair s.params.map i j = (BitVec.ofNat 4 r.val, BitVec.ofNat 4 c.val)) :
    t.cell r c = !stub[index16 (gray i)].getLsbD j := by
  rw [h.cells i j r c hj, hstub _ (sampleEdge_lt_scanEdges s.params i)]

theorem ScanCompleted.smp_of_static {stub : Stub} (h : ScanCompleted s t)
    (hstub : s.StaticFor stub (scanEdges s.params)) : t.smp = stub[index16 8] := by
  rw [h.smp, hstub _ (sampleEdge_lt_scanEdges s.params 15)]

/-- R133: the stub and the table alone make the board, so two scans of one table under one stub leave the same. -/
theorem ScanCompleted.brd_eq_of_static {s' t' : State} {stub : Stub} (h : ScanCompleted s t)
    (h' : ScanCompleted s' t') (hmap : s'.params = s.params) (hc : s.cfgErr = false)
    (hstub : s.StaticFor stub (scanEdges s.params)) (hstub' : s'.StaticFor stub (scanEdges s'.params)) :
    t'.brd = t.brd := by
  refine board_eq_of_cells fun r c => ?_
  obtain ⟨i, j, hj⟩ := exists_channel_of_cell ((cfgErr_eq_false_iff s).1 hc) r c
  exact (h'.cell_of_static hstub' (hmap ▸ hj)).trans (h.cell_of_static hstub hj).symm

/-- A `SCAN` offered at the edge after a scan's last starts the next scan (R188). -/
theorem ScanCompleted.startsScan (h : ScanCompleted s t) (hc : s.cfgErr = false)
    (hr : (s.hostAt (scanEdges s.params)).rst = false) (hv : (s.hostAt (scanEdges s.params)).cmdValid = true)
    (hop : (s.hostAt (scanEdges s.params)).cmd.op = 0x1) : t.StartsScan := by
  have hhost : t.hostAt 0 = s.hostAt (scanEdges s.params) := h.later.hostAt 0
  rw [← hhost] at hr hv hop
  exact ⟨_, ⟨h.ph, hr, hv, rfl⟩, hop, h.later.cfgErr.trans hc⟩

end

/-- Settles O44: the second scan starts on the first one's end state, and the board a scan leaves is made of the stub
and the table alone. -/
theorem scanIsIdempotentUnderAStaticStub : Obligations.ScanIsIdempotentUnderAStaticStub := by
  intro s stub hs hr hv hop hstub
  obtain ⟨t, ht, hst⟩ := exists_scanCompleted hs fun k hk => hr k (by omega)
  have hparams : t.params = s.params := hst.later.params
  have hpos : 0 < scanEdges s.params := Nat.zero_lt_of_lt (sampleEdge_lt_scanEdges s.params 0)
  have hts : t.StartsScan := hst.startsScan hs.cfgErr (hr _ (by omega)) hv hop
  have htr : t.NoResetFor (scanEdges t.params) := hst.later.noResetFor hr (by rw [hparams]; omega)
  obtain ⟨u, hu, htu⟩ := exists_scanCompleted hts htr
  have hstub₁ : s.StaticFor stub (scanEdges s.params) := fun k hk => hstub k (by omega)
  have hstub₂ : t.StaticFor stub (scanEdges t.params) := hst.later.staticFor hstub (by rw [hparams]; omega)
  have hbrd : u.brd = t.brd := hst.brd_eq_of_static htu hparams hs.cfgErr hstub₁ hstub₂
  exact ⟨t, u, ht, hparams ▸ hu, hbrd, congrArg packBoard hbrd, hst.i, htu.i, hst.sel, htu.sel,
    hst.smp_of_static hstub₁, htu.smp_of_static hstub₂, hst.age, hparams ▸ htu.age, hst.answered, htu.answered⟩

/-- All four lines show one level. -/
theorem getLsbD_levelSample (level : Bool) (j : Line) :
    (if level then 0xF else 0x0 : Sample).getLsbD j = level := by
  revert level j
  decide

/-- All eight cells of the row hold the inverted level. -/
theorem getLsbD_levelRow (level : Bool) (c : Coord) : (if level then 0x00 else 0xFF : RowBits).getLsbD c = !level := by
  revert level c
  decide

/-- Settles O45: every cell is some channel's, and every channel's stub bit is the level. -/
theorem polarityExtremes : Obligations.PolarityExtremes := by
  intro s level hs hr hstub
  obtain ⟨t, ht, hst⟩ := exists_scanCompleted hs hr
  refine ⟨t, ht, fun r => BitVec.eq_of_getLsbD_eq fun c hc => ?_⟩
  obtain ⟨i, j, hj⟩ := exists_channel_of_cell ((cfgErr_eq_false_iff s).1 hs.cfgErr) r ⟨c, hc⟩
  calc t.brd[r].getLsbD c
    _ = !(Vector.replicate 16 (if level then 0xF else 0x0 : Sample))[index16 (gray i)].getLsbD j :=
        hst.cell_of_static hstub hj
    _ = !level := by rw [Fin.getElem_fin, Vector.getElem_replicate, getLsbD_levelSample]
    _ = _ := (getLsbD_levelRow level ⟨c, hc⟩).symm

end Sys2Proof.Machine
end

section
/-! PROOFS. The board of files 10 and 44: which edges write it and how many of its cells, and that nothing but the queries
and the port reads it. -/

namespace Sys2Proof.Machine

open Sys2Proof

/-! ### What writes the board (R21, R144) -/

/-- A cleared board shows as zero on the port. -/
theorem packBoard_replicate_zero : packBoard (Vector.replicate 8 0) = 0 := by decide

/-- R21, R130: outside `WRIT` an edge holds the board; a `WRIT` edge leaves what the four line writes make of it. -/
theorem EdgeTo.brd_cases {s t : State} (h : EdgeTo s t) :
    (s.ph ≠ .writ ∧ t.brd = s.brd) ∨
      (s.ph = .writ ∧ writeLines (romRead s.params.map s.i) s.smp lines s.brd = some t.brd) := by
  cases h with
  | idle hp _ | addr hp | count hp _ | sample hp _ => exact .inl ⟨by simp [hp], rfl⟩
  | answer ha _ | scan ha _ _ | seta ha _ _ _ | rdo ha _ _ => exact .inl ⟨by simp [ha.1], rfl⟩
  | writ hp _ hb | last hp _ hb => exact .inr ⟨hp, hb⟩

/-- An edge with `RST = 0` holds every cell that no line of step `I` names. -/
theorem EdgeTo.cell_eq_of_not_named {s t : State} (h : EdgeTo s t) {r c : Coord}
    (hne : ∀ j : Line, mapPair s.params.map s.i j ≠ (BitVec.ofNat 4 r.val, BitVec.ofNat 4 c.val)) :
    t.cell r c = s.cell r c := by
  rcases h.brd_cases with ⟨-, hb⟩ | ⟨-, hb⟩
  · exact congrArg (cellRead · r c) hb
  · exact writeLines_other hb fun j _ hj => hne j ((romPair_eq_iff _ _ _ _).2 hj)

theorem pairCell_ofNat (r c : Coord) : pairCell (BitVec.ofNat 4 r.val, BitVec.ofNat 4 c.val) = (r, c) := by
  revert r c
  decide

/-- R144: the cells that change are among those the four lines of step `I` name, so at most four change. -/
theorem EdgeTo.card_changed_le {s t : State} (h : EdgeTo s t) :
    (Finset.univ.filter fun rc : Coord × Coord => t.cell rc.1 rc.2 ≠ s.cell rc.1 rc.2).card ≤ 4 := by
  have hsub : (Finset.univ.filter fun rc : Coord × Coord => t.cell rc.1 rc.2 ≠ s.cell rc.1 rc.2) ⊆
      Finset.univ.image fun j : Line => channelCell s.params.map (s.i, j) := by
    rintro ⟨r, c⟩ hrc
    rw [Finset.mem_filter_univ] at hrc
    obtain ⟨j, hj⟩ : ∃ j : Line, mapPair s.params.map s.i j = (BitVec.ofNat 4 r.val, BitVec.ofNat 4 c.val) := by
      by_contra! hne
      exact hrc (h.cell_eq_of_not_named hne)
    refine Finset.mem_image.2 ⟨j, Finset.mem_univ j, ?_⟩
    rw [channelCell, hj, pairCell_ofNat]
  exact (Finset.card_le_card hsub).trans (Finset.card_image_le.trans (Finset.card_fin 4).le)

/-! ### What neither reads nor writes the board -/

/-- The register write commutes with an exchange of the board, so it neither reads nor writes it. -/
def BoardBlind (f : State → State) : Prop := ∀ (d : State) (b : Board), f (setBoard d b) = setBoard (f d) b

theorem BoardBlind.brd_eq {f : State → State} (h : BoardBlind f) (d : State) : (f d).brd = d.brd :=
  calc (f d).brd
    _ = (f (setBoard d d.brd)).brd := rfl
    _ = d.brd := by rw [h, setBoard_brd]

theorem boardBlind_uNext : BoardBlind uNext := by
  intro d b
  by_cases hi : d.i = 15
  · rw [uNext_of_last hi, uNext_of_last (d := setBoard d b) hi]
    rfl
  · rw [uNext_of_not_last hi, uNext_of_not_last (d := setBoard d b) hi]
    rfl

theorem boardBlind_waitEdge : BoardBlind waitEdge := by
  intro d b
  by_cases hage : d.age = d.params.settleCycles
  · rw [waitEdge_of_settled hage, waitEdge_of_settled (s := setBoard d b) hage]
    rfl
  · rw [waitEdge_of_unsettled hage, waitEdge_of_unsettled (s := setBoard d b) hage]
    rfl

/-- R144: the body of a command writes no cell; a query's response is made of the board before the edge. -/
theorem exec_eq_acceptCommand_boardBlind (i : Instr) (s : State) :
    ∃ body, exec i s = acceptCommand s body ∧ BoardBlind body := by
  cases i with
  | scan => exact ⟨_, (rfl : execScan s = acceptCommand s _), fun _ _ => rfl⟩
  | rdo => exact ⟨_, (rfl : execRdo s = acceptCommand s _), fun _ _ => rfl⟩
  | getsq x y => exact ⟨_, (rfl : execGetsq x y s = acceptCommand s _), fun _ _ => by split <;> rfl⟩
  | getrow r => exact ⟨_, (rfl : execGetrow r s = acceptCommand s _), fun _ _ => by split <;> rfl⟩
  | seta a => exact ⟨_, (rfl : execSeta a s = acceptCommand s _), fun _ _ => by split <;> rfl⟩

/-- No command writes the board at its own edge. -/
theorem exec_keeps_brd {i : Instr} {s t : State} (hp : s.ph = .idle) (h : exec i s = .next t) : t.brd = s.brd := by
  obtain ⟨body, he, hbody⟩ := exec_eq_acceptCommand_boardBlind i s
  rw [he] at h
  cases hc : s.cfgErr with
  | true =>
    rw [acceptCommand_of_cfgErr hp hc] at h
    cases h
    rfl
  | false =>
    rw [acceptCommand_of_ok hp hc] at h
    cases h
    exact hbody.brd_eq (edgeDefaults s)

/-! ### A step on another board -/

section
variable {s t : State} {w : CommandWord}

/-- An accepted command whose body is blind to the board does the same on every board, the board apart. -/
theorem acceptCommand_setBoard {body : State → State} (hp : s.ph = .idle) (hbody : BoardBlind body)
    (h : acceptCommand s body = .next t) (b : Board) : acceptCommand (setBoard s b) body = .next (setBoard t b) := by
  cases hc : s.cfgErr with
  | true =>
    rw [acceptCommand_of_cfgErr hp hc] at h
    cases h
    exact acceptCommand_of_cfgErr (s := setBoard s b) hp hc body
  | false =>
    rw [acceptCommand_of_ok hp hc] at h
    cases h
    rw [acceptCommand_of_ok (s := setBoard s b) hp hc]
    exact congrArg _ (hbody (edgeDefaults s) b)

/-- So does a command that is no query. -/
theorem exec_setBoard {i : Instr} (hp : s.ph = .idle) (h2 : i.opcode ≠ 0x2) (h3 : i.opcode ≠ 0x3)
    (h : exec i s = .next t) (b : Board) : exec i (setBoard s b) = .next (setBoard t b) := by
  cases i with
  | getsq => exact absurd rfl h2
  | getrow => exact absurd rfl h3
  | scan =>
    rw [exec, execScan] at h ⊢
    exact acceptCommand_setBoard hp (fun _ _ => rfl) h b
  | seta a =>
    rw [exec, execSeta] at h ⊢
    exact acceptCommand_setBoard hp (fun _ _ => by split <;> rfl) h b
  | rdo =>
    rw [exec, execRdo] at h ⊢
    exact acceptCommand_setBoard hp (fun _ _ => rfl) h b

/-- So does an accepted word that is no query, an illegal one too. -/
theorem acceptWord_setBoard (hp : s.ph = .idle) (h2 : w.op ≠ 0x2) (h3 : w.op ≠ 0x3) (h : acceptWord w s = .next t)
    (b : Board) : acceptWord w (setBoard s b) = .next (setBoard t b) := by
  cases hd : decode w with
  | ok i =>
    obtain ⟨-, hop⟩ := wellFormed_and_opcode_of_decode hd
    rw [acceptWord_of_decode hd] at h ⊢
    exact exec_setBoard hp (hop ▸ h2) (hop ▸ h3) h b
  | error =>
    rw [acceptWord_of_illegal hd] at h ⊢
    exact acceptCommand_setBoard hp (fun _ _ => rfl) h b

/-- The four line writes stop on the table alone, and what else a `WRIT` edge does is blind to the board. -/
theorem writEdge_setBoard (h : writEdge s = .next t) (b : Board) :
    ∃ b', writEdge (setBoard s b) = .next (setBoard t b') := by
  cases hw : writeLines (romRead s.params.map s.i) s.smp lines s.brd with
  | none => simp [writEdge, hw] at h
  | some b₀ =>
    have hnamed := (writeLines_isSome_iff _ _ _ _).1 (Option.isSome_of_eq_some hw)
    obtain ⟨b', hb'⟩ := Option.isSome_iff_exists.1 ((writeLines_isSome_iff _ s.smp _ b).2 hnamed)
    rw [writEdge_of_writeLines hw] at h
    cases h
    refine ⟨b', (writEdge_of_writeLines (s := setBoard s b) hb').trans ?_⟩
    exact congrArg _ (boardBlind_uNext (setBoard (edgeDefaults s) b₀) b')

/-- The edges of the sequencer do the same on every board, the board apart. -/
theorem sequencerEdge_setBoard (h : sequencerEdge s = .next t) (b : Board) :
    ∃ b', sequencerEdge (setBoard s b) = .next (setBoard t b') := by
  cases hp : s.ph with
  | idle =>
    rw [sequencerEdge_of_idle hp] at h
    cases h
    exact ⟨b, sequencerEdge_of_idle (s := setBoard s b) hp⟩
  | addr =>
    rw [sequencerEdge_of_addr hp] at h
    cases h
    exact ⟨b, sequencerEdge_of_addr (s := setBoard s b) hp⟩
  | wait =>
    rw [sequencerEdge_of_wait hp] at h
    cases h
    exact ⟨b, (sequencerEdge_of_wait (s := setBoard s b) hp).trans (congrArg _ (boardBlind_waitEdge s b))⟩
  | writ =>
    rw [sequencerEdge_of_writ hp] at h
    rw [sequencerEdge_of_writ (s := setBoard s b) hp]
    exact writEdge_setBoard h b

theorem step_of_reset (hr : (s.hostAt 0).rst = true) : step s = .next (resetEdge s) := by
  simp [step, clockEdge, hr]

theorem step_of_quiet (hp : s.ph = .idle) (hr : (s.hostAt 0).rst = false) (hv : (s.hostAt 0).cmdValid = false) :
    step s = .next (edgeDefaults s) := by
  simp [step, clockEdge, hr, hv, sequencerEdge_of_idle hp]

/-- R144: a step that accepts no query does the same on every board, the board apart. -/
theorem step_setBoard (h : step s = .next t) (hq : ∀ w, s.Accepts w → w.op ≠ 0x2 ∧ w.op ≠ 0x3) (b : Board) :
    ∃ b', step (setBoard s b) = .next (setBoard t b') := by
  rcases step_cases s with ⟨hr, -⟩ | ⟨hr, hp, hv, e⟩ | ⟨hr, hp, hv, e⟩ | ⟨hr, hp, e⟩
  · obtain rfl := eq_resetEdge_of_step h hr
    exact ⟨Vector.replicate 8 0, step_of_reset (s := setBoard s b) hr⟩
  · have ha : s.Accepts (s.hostAt 0).cmd := ⟨hp, hr, hv, rfl⟩
    have ha' : (setBoard s b).Accepts (s.hostAt 0).cmd := ha
    obtain ⟨h2, h3⟩ := hq _ ha
    exact ⟨b, ha'.step_eq.trans (acceptWord_setBoard hp h2 h3 (e.symm.trans h) b)⟩
  · cases e.symm.trans h
    exact ⟨b, step_of_quiet (s := setBoard s b) hp hr hv⟩
  · rw [step_of_busy (s := setBoard s b) hp hr]
    exact sequencerEdge_setBoard (e.symm.trans h) b

end

/-- Settles O27: what writes the board is read off the kinds of edges and the commands' bodies; every step that accepts no
query commutes with an exchange of the board. -/
theorem boardChangesOnlyAtWritOrReset : Obligations.BoardChangesOnlyAtWritOrReset := by
  refine ⟨fun s r c => packBoard_getLsbD s.brd r c, fun s t h hr => ?_, fun p r => ?_, fun s t h hr hp => ?_,
    fun s t h hr _ => ?_, fun i s t hp h => exec_keeps_brd hp h, fun s t b h hq _ => step_setBoard h hq b⟩
  · obtain rfl := eq_resetEdge_of_step h hr
    exact ⟨packBoard_replicate_zero, fun r => Vector.getElem_replicate r.isLt⟩
  · exact Vector.getElem_replicate r.isLt
  · rcases (edgeTo_of_step h hr).brd_cases with ⟨-, hb⟩ | ⟨hw, -⟩
    · exact ⟨hb, congrArg packBoard hb⟩
    · exact absurd hw hp
  · have he := edgeTo_of_step h hr
    exact ⟨fun r c hne => he.cell_eq_of_not_named hne, he.card_changed_le⟩

end Sys2Proof.Machine
end

section
/-! PROOFS. The errors of file 60: what each of them does at its edge, what causes it, the order in which one code is
chosen, and what an invalid table keeps from ever happening. -/

namespace Sys2Proof.Machine

open Sys2Proof

/-! ### Taking an error (R12, R156) -/

/-- An error is answered with zero data and changes nothing but the response registers. -/
theorem exists_answered_of_raiseError {r : Result} {s : State} {code : Status}
    (h : r = .next (raiseError (edgeDefaults s) code)) :
    ∃ t, r = .next t ∧ Answered t code 0 ∧ OnlyResponseChanged s t :=
  ⟨_, h, answered_respond _ _ _, onlyResponseChanged_respond s code 0⟩

/-! ### `CONFIG_ERROR` (R157) -/

section
variable {s t : State} {w : CommandWord}

/-- R157: under `CFG_ERR` the step that accepts a word is the error, whatever the word. -/
theorem step_of_cfgErr (ha : s.Accepts w) (hc : s.cfgErr = true) :
    step s = .next (raiseError (edgeDefaults s) .configError) :=
  ha.step_eq.trans (acceptWord_of_cfgErr ha.1 hc w)

/-- R157: so is every command offered in `IDLE`. -/
theorem exec_of_cfgErr (hp : s.ph = .idle) (hc : s.cfgErr = true) (i : Instr) :
    exec i s = .next (raiseError (edgeDefaults s) .configError) := by
  obtain ⟨body, hbody⟩ := exec_eq_acceptCommand i s
  rw [hbody, acceptCommand_of_cfgErr hp hc]

/-- R28, R32: `CFG_ERR` depends on the table alone, and no step changes the table. -/
theorem step_keeps_cfgErr (h : step s = .next t) : t.cfgErr = s.cfgErr := by
  cases hr : (s.hostAt 0).rst with
  | true =>
    obtain rfl := eq_resetEdge_of_step h hr
    rfl
  | false => simp only [State.cfgErr, (edgeTo_of_step h hr).params_eq]

/-- What an invalid table keeps for ever (R157): no scan runs, and the board, `SEL` and `SMP` are zero. -/
structure State.Frozen (s : State) : Prop where
  cfgErr : s.cfgErr = true
  ph : s.ph = .idle
  brd : s.brd = Vector.replicate 8 0
  sel : s.sel = 0
  smp : s.smp = 0

/-- With `RST = 0` a frozen state has only the idle edge and the edge that answers `CONFIG_ERROR`: the other commands
need a valid table, and the edges of a scan another phase. -/
theorem State.Frozen.of_edgeTo (hf : s.Frozen) (h : EdgeTo s t) : t.Frozen := by
  have hc := hf.cfgErr
  have hp := hf.ph
  cases h with
  | idle | answer => exact ⟨hf.cfgErr, hf.ph, hf.brd, hf.sel, hf.smp⟩
  | scan _ hc' | seta _ hc' | rdo _ hc' => simp [hc] at hc'
  | addr hp' | count hp' | sample hp' | writ hp' | last hp' => simp [hp] at hp'

theorem State.Frozen.of_step (hf : s.Frozen) (h : step s = .next t) : t.Frozen := by
  cases hr : (s.hostAt 0).rst with
  | true =>
    obtain rfl := eq_resetEdge_of_step h hr
    exact ⟨hf.cfgErr, rfl, rfl, rfl, rfl⟩
  | false => exact hf.of_edgeTo (edgeTo_of_step h hr)

/-- What every step keeps, every run keeps. -/
theorem runEdges_keeps {P : State → Prop} (hstep : ∀ s t, P s → step s = .next t → P t) {n : Nat}
    (hs : P s) (h : runEdges n s = .next t) : P t := by
  induction n generalizing s with
  | zero =>
    cases h
    exact hs
  | succ n ih =>
    unfold runEdges at h
    split at h
    next u hu => exact ih (hstep s u hs hu) h
    next => cases h
    next => cases h

/-- On an invalid table the reset state is frozen, whatever the host and the environment are to do. -/
theorem frozen_resetOf {p : Params} (h : validMap p.map = false) (host : List HostEdge) (env : List Stub) :
    ({ State.resetOf p with hostIn := host, env := env } : State).Frozen :=
  ⟨by simp [State.cfgErr, h], rfl, rfl, rfl, rfl⟩

end

/-- Settles O8: under `CFG_ERR` an accepted word only takes the error; a frozen state stays frozen over every run. -/
theorem invalidTableRefusesEverything : Obligations.InvalidTableRefusesEverything := by
  refine ⟨fun s w ha hc => exists_answered_of_raiseError (step_of_cfgErr ha hc),
    fun i s hp hc => exists_answered_of_raiseError (exec_of_cfgErr hp hc i),
    fun s t h => step_keeps_cfgErr h, fun p host env n t hm h => ?_⟩
  have hf : t.Frozen := runEdges_keeps (fun _ _ => State.Frozen.of_step) (frozen_resetOf hm host env) h
  exact ⟨hf.ph, hf.brd, hf.sel, hf.smp⟩

/-! ### `BOUNDS_ERROR` (R159) -/

section
variable {s t : State} {w : CommandWord}

theorem exec_getsq_of_gt (hp : s.ph = .idle) (hc : s.cfgErr = false) {x y : Nat} (h : 7 < x ∨ 7 < y) :
    exec (.getsq x y) s = .next (raiseError (edgeDefaults s) .boundsError) := by
  simp only [exec, execGetsq, acceptCommand_of_ok hp hc]
  rcases h with hx | hy
  · rw [boardOperand?_of_gt hx]
  · rw [boardOperand?_of_gt hy]
    cases boardOperand? x <;> rfl

theorem exec_getrow_of_gt (hp : s.ph = .idle) (hc : s.cfgErr = false) {r : Nat} (h : 7 < r) :
    exec (.getrow r) s = .next (raiseError (edgeDefaults s) .boundsError) := by
  simp only [exec, execGetrow, acceptCommand_of_ok hp hc, boardOperand?_of_gt h]

theorem exec_seta_of_gt (hp : s.ph = .idle) (hc : s.cfgErr = false) {a : Nat} (h : 15 < a) :
    exec (.seta a) s = .next (raiseError (edgeDefaults s) .boundsError) := by
  simp only [exec, execSeta, acceptCommand_of_ok hp hc, addrOperand?_of_gt h]

/-- R159: on a valid table the step that accepts a word out of bounds is the error. -/
theorem step_of_outOfBounds (ha : s.Accepts w) (hc : s.cfgErr = false) (hb : OutOfBounds w) :
    step s = .next (raiseError (edgeDefaults s) .boundsError) := by
  rw [ha.step_eq]
  rcases hb with ⟨hop, hxy⟩ | ⟨hop, hx⟩ | ⟨hop, hx⟩
  · rw [acceptWord_of_decode (decode_of_op_2 hop), exec_getsq_of_gt ha.1 hc hxy]
  · rw [acceptWord_of_decode (decode_of_op_3 hop), exec_getrow_of_gt ha.1 hc hx]
  · rw [acceptWord_of_decode (decode_of_op_4 hop), exec_seta_of_gt ha.1 hc hx]

/-- Every response is `OK` or the answer to an accepted word that writes the response registers only. -/
theorem EdgeTo.ok_or_answersOnly (h : EdgeTo s t) (hv : t.rspValid = true) :
    t.rspStatus = .ok ∨ ∃ w, s.Accepts w ∧ AnswersOnly s w t.rspStatus t.rspData := by
  cases h with
  | answer ha hans => exact .inr ⟨_, ha, hans⟩
  | seta | rdo | last => exact .inl rfl
  | idle | scan | addr | count | sample | writ => cases hv

/-- R159, the converse: `BOUNDS_ERROR` has no other cause. -/
theorem AnswersOnly.outOfBounds_of_boundsError {d : BitVec 8} (h : AnswersOnly s w .boundsError d) :
    s.cfgErr = false ∧ OutOfBounds w := by
  cases h with
  | outOfBounds hc hb => exact ⟨hc, hb⟩

end

/-- Settles O9: each cause by its command's rule, and the converse by what an answer can be. -/
theorem boundsErrorCauses : Obligations.BoundsErrorCauses := by
  refine ⟨fun s x y hp hc h => exists_answered_of_raiseError (exec_getsq_of_gt hp hc h),
    fun s r hp hc h => exists_answered_of_raiseError (exec_getrow_of_gt hp hc h),
    fun s a hp hc h => exists_answered_of_raiseError (exec_seta_of_gt hp hc h), fun s t h hv hst => ?_⟩
  cases hr : (s.hostAt 0).rst with
  | true => simp [eq_resetEdge_of_step h hr] at hv
  | false =>
    rcases (edgeTo_of_step h hr).ok_or_answersOnly hv with hok | ⟨w, ha, hans⟩
    · simp [hok] at hst
    · rw [hst] at hans
      exact ⟨w, ha, hans.outOfBounds_of_boundsError⟩

/-! ### The order of the codes (R161) -/

section
variable {s t : State} {w : CommandWord}

/-- Where no error has a cause, an answer is `OK`. -/
theorem AnswersOnly.status_eq_ok {st : Status} {d : BitVec 8} (h : AnswersOnly s w st d) (hc : ¬ s.cfgErr = true)
    (hi : ¬ (w.op = 0x0 ∨ 0x6 ≤ w.op)) (hb : ¬ OutOfBounds w) : st = .ok := by
  cases h with
  | configError hc' => exact absurd hc' hc
  | illegal _ hi' => exact absurd hi' hi
  | outOfBounds _ hb' => exact absurd hb' hb
  | getsq | getrow => rfl

/-- An accepted word has its response at once unless it starts a scan. -/
theorem State.Accepts.responseDue_iff (ha : s.Accepts w) : s.ResponseDue ↔ ¬ s.StartsScan := by
  simp [State.ResponseDue, ha.1, show ∃ w, s.Accepts w from ⟨w, ha⟩]

/-- R125: the edge that starts a scan gives no response. -/
theorem noResponse_of_startsScan (h : step s = .next t) (ha : s.Accepts w) (hs : s.StartsScan) : NoResponse s t := by
  rcases (edgeTo_of_step h ha.2.1).response_cases with ⟨hdue, -⟩ | ⟨-, hno⟩
  · exact absurd hs (ha.responseDue_iff.1 hdue)
  · exact hno

/-- R161: an accepted word that starts no scan and gives no error a cause is answered `OK`. -/
theorem ok_of_no_error (h : step s = .next t) (ha : s.Accepts w) (hs : ¬ s.StartsScan) (hc : ¬ s.cfgErr = true)
    (hi : ¬ (w.op = 0x0 ∨ 0x6 ≤ w.op)) (hb : ¬ OutOfBounds w) : t.rspValid = true ∧ t.rspStatus = .ok := by
  have he := edgeTo_of_step h ha.2.1
  rcases he.response_cases with ⟨-, hv⟩ | ⟨hdue, -⟩
  · refine ⟨hv, ?_⟩
    rcases he.ok_or_answersOnly hv with hok | ⟨w', ha', hans⟩
    · exact hok
    · obtain rfl := ha.eq ha'
      exact hans.status_eq_ok hc hi hb
  · exact absurd (ha.responseDue_iff.2 hs) hdue

/-- The step that takes an error gives its answer. -/
theorem answered_of_step_eq_raiseError {code : Status} (h : step s = .next t)
    (he : step s = .next (raiseError (edgeDefaults s) code)) : Answered t code 0 := by
  cases he.symm.trans h
  exact answered_respond _ _ _

/-- R180: a reset edge leads to the reset state. -/
theorem inResetState_resetEdge (s : State) : InResetState (resetEdge s) := by
  constructor
  case brd => exact cellRead_replicate_zero
  all_goals rfl

end

/-- Settles O10, down the chain of R161, each branch by the step its word takes; reset by the reset edge. -/
theorem errorPriority : Obligations.ErrorPriority := by
  refine ⟨fun s t w ha h => ?_, fun s hr => ⟨_, step_of_reset hr, inResetState_resetEdge s⟩⟩
  have hbounds (hc : ¬ s.cfgErr = true) (hb : OutOfBounds w) : Answered t .boundsError 0 :=
    answered_of_step_eq_raiseError h (step_of_outOfBounds ha (Bool.eq_false_of_not_eq_true hc) hb)
  split_ifs with hc hi hsq hrow hset hscan
  · exact answered_of_step_eq_raiseError h (step_of_cfgErr ha hc)
  · exact answered_of_step_eq_raiseError h (by simpa [hc] using step_of_illegal ha hi)
  · exact hbounds hc (.inl hsq)
  · exact hbounds hc (.inr (.inl hrow))
  · exact hbounds hc (.inr (.inr hset))
  · exact noResponse_of_startsScan h ha (ha.startsScan_iff.2 ⟨hscan, Bool.eq_false_of_not_eq_true hc⟩)
  · have hns : ¬ s.StartsScan := fun hs => hscan (ha.startsScan_iff.1 hs).1
    have hb : ¬ OutOfBounds w := by simp only [OutOfBounds, hsq, hrow, hset, or_self, not_false_eq_true]
    exact ok_of_no_error h ha hns hc hi hb

end Sys2Proof.Machine
end

section
/-! PROOFS. The reset edge of file 70: it gives every register its reset value and, in an instance that can be built, no
other edge does. -/

namespace Sys2Proof.Machine

open Sys2Proof

/-! ### Only then (R180) -/

/-- R31: where `SETTLE_CYCLES` is at least 1, `AGE` is not zero after its ordinary count. -/
theorem ageCount_ne_zero {p : Params} (hS : 1 ≤ p.settleCycles) (age : Nat) : ageCount p age ≠ 0 := by
  rcases Nat.lt_or_ge age p.settleCycles with h | h
  · simp [ageCount_of_lt h]
  · rw [ageCount_of_ge h]
    omega

/-- A `SETA` that sets an address has its response due at its edge (R101). -/
theorem State.SetsAddress.responseDue {s : State} {a : Nat} (h : s.SetsAddress a) : s.ResponseDue := by
  obtain ⟨w, ha, hop, -⟩ := h
  simp [ha.responseDue_iff, ha.startsScan_iff, hop]

/-- An edge that writes `SEL` shows: a scan runs after it, or a response is given at it. -/
theorem EdgeTo.busy_or_rspValid_of_writesSel {s t : State} (h : EdgeTo s t) (hw : s.WritesSel) :
    t.ph ≠ .idle ∨ t.rspValid = true := by
  rcases hw with hp | ⟨a, hset⟩
  · refine .inl fun hidle => ?_
    obtain ⟨hwrit, -⟩ := h.idle_iff.2.1 ⟨by simp [hp], hidle⟩
    simp [hp] at hwrit
  · rcases h.response_cases with ⟨-, hv⟩ | ⟨hdue, -⟩
    · exact .inr hv
    · exact absurd hset.responseDue hdue

/-- R180: `AGE = 0` after an edge with `RST = 0` takes a write of `SEL`, which leaves `PH` or `RSP_VALID` off its reset
value. -/
theorem EdgeTo.not_inResetState {s t : State} (h : EdgeTo s t) (hS : 1 ≤ s.params.settleCycles) :
    ¬ InResetState t := by
  intro hreset
  rcases h.age_cases with ⟨hw, -⟩ | ⟨-, hage⟩
  · rcases h.busy_or_rspValid_of_writesSel hw with hp | hv
    · exact hp hreset.ph
    · simp [hreset.rspValid] at hv
  · exact ageCount_ne_zero hS s.age (hage.symm.trans hreset.age)

/-! ### At every edge with `RST = 1` (R180) -/

theorem oneEdgeLater_resetEdge (s : State) : OneEdgeLater s (resetEdge s) := by constructor <;> rfl

/-- Settles O35: a step with `RST = 1` is the reset edge, whose registers and ports are read off; a step with `RST = 0` is
one of the edges of `EdgeTo`, none of which leads to the reset state. -/
theorem resetEdgeClearsEverything : Obligations.ResetEdgeClearsEverything :=
  ⟨fun _ _ h hr hS => (edgeTo_of_step h hr).not_inResetState hS, fun s hr =>
    ⟨_, step_of_reset hr, inResetState_resetEdge s, oneEdgeLater_resetEdge s, rfl, rfl, rfl, rfl,
      packBoard_replicate_zero⟩⟩

end Sys2Proof.Machine
end

section
/-! PROOFS. The commands of files 30, 41, 43 and 44 at their accepting edge: the step of each on a valid table, what an
error leaves as it was, and which edges write `SEL`, `SMP` and `I`. -/

namespace Sys2Proof.Machine

open Sys2Proof

/-! ### The accepting edge (R30) -/

/-- R30: the edge that accepts a word is `exec` of the command it decodes to. -/
theorem State.Accepts.step_eq_exec {s : State} {w : CommandWord} {i : Instr} (ha : s.Accepts w)
    (hd : decode w = .ok i) : step s = exec i s :=
  ha.step_eq.trans (acceptWord_of_decode hd s)

/-- Settles O5: the step that accepts a word is the acceptance of that word, which runs what it decodes to. -/
theorem stepRunsTheDecodedCommand : Obligations.StepRunsTheDecodedCommand :=
  fun _ _ _ ha hd => ha.step_eq_exec hd

/-! ### The commands on a valid table (R101, R104, R125) -/

section
variable {s : State}

theorem exec_scan (hp : s.ph = .idle) (hc : s.cfgErr = false) :
    exec .scan s = .next (setPhase (setIndex (edgeDefaults s) 0) .addr) := by
  rw [exec, execScan, acceptCommand_of_ok hp hc]

theorem exec_seta_of_le (hp : s.ph = .idle) (hc : s.cfgErr = false) {a : Nat} (ha : a ≤ 15) :
    exec (.seta a) s = .next (respond (uSetA (edgeDefaults s) (BitVec.ofNat 4 a)) .ok 0) := by
  simp only [exec, execSeta, acceptCommand_of_ok hp hc, addrOperand?_of_le ha]

theorem exec_seta_addr (hp : s.ph = .idle) (hc : s.cfgErr = false) (a : Addr) :
    exec (.seta a.toNat) s = .next (respond (uSetA (edgeDefaults s) a) .ok 0) := by
  rw [exec_seta_of_le hp hc (Nat.le_of_lt_succ a.isLt), BitVec.ofNat_toNat, BitVec.setWidth_eq]

theorem exec_rdo (hp : s.ph = .idle) (hc : s.cfgErr = false) :
    exec .rdo s = .next (respond (uRdo (edgeDefaults s) s.senseRead) .ok (s.senseRead.zeroExtend 8)) := by
  rw [exec, execRdo, acceptCommand_of_ok hp hc]

theorem State.StartsScan.step_eq (h : s.StartsScan) :
    step s = .next (setPhase (setIndex (edgeDefaults s) 0) .addr) := by
  obtain ⟨w, ha, hop, hc⟩ := h
  exact (ha.step_eq_exec (decode_of_op_1 hop)).trans (exec_scan ha.1 hc)

theorem State.SetsAddress.step_eq {a : Nat} (h : s.SetsAddress a) :
    step s = .next (respond (uSetA (edgeDefaults s) (BitVec.ofNat 4 a)) .ok 0) := by
  obtain ⟨w, ha, hop, hc, rfl, hle⟩ := h
  exact (ha.step_eq_exec (decode_of_op_4 hop)).trans (exec_seta_of_le ha.1 hc hle)

theorem State.Samples.step_eq (h : s.Samples) :
    step s = .next (respond (uRdo (edgeDefaults s) s.senseRead) .ok (s.senseRead.zeroExtend 8)) := by
  obtain ⟨w, ha, hop, hc⟩ := h
  exact (ha.step_eq_exec (decode_of_op_5 hop)).trans (exec_rdo ha.1 hc)

end

/-- Settles O16, field by field of `SETA`'s edge. -/
theorem setaWritesTheSelectRegister : Obligations.SetaWritesTheSelectRegister := fun _ a hp hc =>
  ⟨_, exec_seta_addr hp hc a, rfl, rfl, answered_respond _ _ _, rfl, rfl, hp, rfl, ⟨rfl, rfl, rfl, rfl⟩⟩

/-- R77: a sample in a response byte leaves the high four bits zero. -/
theorem toNat_zeroExtend_sample_le (v : Sample) : (v.zeroExtend 8).toNat ≤ 0x0F := by
  revert v
  decide

/-- Settles O17: settled or not is what `SenseRead` asks. -/
theorem rdoAnswersTheSample : Obligations.RdoAnswersTheSample := fun s hp hc =>
  ⟨_, exec_rdo hp hc, answered_respond _ _ _, toNat_zeroExtend_sample_le s.senseRead, senseRead_of_settled,
    fun hlt => senseRead_of_unsettled hlt.ne, rfl, rfl, hp, rfl, rfl, ⟨rfl, rfl, rfl, rfl⟩⟩

/-- Settles O18, field by field of `SCAN`'s edge. -/
theorem scanStartsTheSequencer : Obligations.ScanStartsTheSequencer := fun _ hp hc =>
  ⟨_, exec_scan hp hc, rfl, rfl, rfl, rfl, ⟨rfl, rfl, rfl⟩, rfl, rfl, rfl, rfl, ⟨rfl, rfl, rfl, rfl⟩⟩

/-! ### The board queries (R141, R143) -/

theorem bitByte_eq_ite (b : Bool) : bitByte b = if b then 1 else 0 := by
  cases b <;> rfl

/-- Settles O13: the cell `(7 - y, x)` is the bit `8(7 - y) + x` of the packed view. -/
theorem getsqAnswersTheStoredCell : Obligations.GetsqAnswersTheStoredCell := by
  intro s x y hp hc
  have hport : s.board.getLsbD (8 * (7 - y.val) + x.val) = cellRead s.brd (flip y) x :=
    packBoard_getLsbD s.brd (flip y) x
  refine ⟨_, exec_getsq_coord hp hc x y, ?_, hport.symm, onlyResponseChanged_respond s _ _⟩
  rw [hport, ← bitByte_eq_ite]
  exact answered_respond _ _ _

/-- Settles O14: the response byte is the row register. -/
theorem getrowAnswersTheStoredRow : Obligations.GetrowAnswersTheStoredRow := fun s r hp hc =>
  ⟨_, exec_getrow_coord hp hc r, answered_respond _ _ _, fun _ => rfl, onlyResponseChanged_respond s _ _⟩

/-! ### Errors are precise (R156) -/

/-- R77: beside an error the data byte is zero. -/
theorem AnswersOnly.data_eq_zero {s : State} {w : CommandWord} {st : Status} {d : BitVec 8}
    (h : AnswersOnly s w st d) (hst : st ≠ .ok) : d = 0 := by
  cases h with
  | configError | illegal | outOfBounds => rfl
  | getsq | getrow => exact absurd rfl hst

/-- Settles O11: the one kind of edge that answers no `OK` writes the response registers only. -/
theorem errorsArePrecise : Obligations.ErrorsArePrecise := by
  intro s t w ha h hv hst
  cases edgeTo_of_step h ha.2.1 with
  | answer _ hans =>
    exact ⟨onlyResponseChanged_respond s _ _, hans.data_eq_zero hst, (cmdReady_eq_true_iff _).2 ha.1⟩
  | seta | rdo | last => exact absurd rfl hst
  | idle | scan | addr | count | sample | writ => cases hv

/-! ### What writes `SEL`, `SMP` and `I` (R23, R25, R26) -/

/-- Settles O28: the two edges that write `SEL` are known, and every other kind of edge holds it. -/
theorem selectRegisterWriters : Obligations.SelectRegisterWriters := by
  refine fun s t h hr => ⟨fun hp => ?_, fun a hset => ?_, fun hp hset => ?_⟩
  · cases (step_of_addr hp hr).symm.trans h
    rfl
  · cases hset.step_eq.symm.trans h
    rfl
  · cases edgeTo_of_step h hr with
    | addr hp' => exact absurd hp' hp
    | seta ha hc hop hx => exact absurd ((ha.setsAddress_iff _).2 ⟨hop, hc, rfl, hx⟩) (hset _)
    | idle | answer | scan | rdo | count | sample | writ | last => rfl

/-- Settles O30: the two edges that write `SMP` are known, and every other kind of edge holds it. -/
theorem sampleRegisterWriters : Obligations.SampleRegisterWriters := by
  refine fun s t h hr => ⟨fun hp hage => ?_, fun hsam => ?_, fun hwait hsam => ?_⟩
  · rw [step_of_wait hp hr, waitEdge_of_settled hage] at h
    cases h
    rfl
  · cases hsam.step_eq.symm.trans h
    rfl
  · cases edgeTo_of_step h hr with
    | sample hp hage => exact absurd ⟨hp, hage⟩ hwait
    | rdo ha hc hop => exact absurd ⟨_, ha, hop, hc⟩ hsam
    | idle | answer | scan | seta | addr | count | writ | last => rfl

/-- R93: a `WRIT` edge advances `I` modulo 16, a scan's last one too; any other edge that starts no scan holds it. -/
theorem EdgeTo.i_cases {s t : State} (h : EdgeTo s t) :
    s.StartsScan ∨ (s.ph = .writ ∧ t.i = s.i + 1) ∨ (s.ph ≠ .writ ∧ t.i = s.i) := by
  cases h with
  | scan ha hc hop => exact .inl ⟨_, ha, hop, hc⟩
  | writ hp => exact .inr (.inl ⟨hp, rfl⟩)
  | last hp hi => exact .inr (.inl ⟨hp, by rw [hi]; rfl⟩)
  | answer ha | seta ha | rdo ha => exact .inr (.inr ⟨by simp [ha.1], rfl⟩)
  | idle hp | addr hp | count hp | sample hp => exact .inr (.inr ⟨by simp [hp], rfl⟩)

/-- Settles O33, by what each kind of edge does to `I`. -/
theorem scanIndexWriters : Obligations.ScanIndexWriters := by
  intro s t h hr
  refine ⟨fun hs => ?_, fun hp => ?_, fun hp hns => ?_⟩
  · cases hs.step_eq.symm.trans h
    rfl
  · rcases (edgeTo_of_step h hr).i_cases with hs | ⟨-, hi⟩ | ⟨hp', -⟩
    · exact absurd hs (not_startsScan_of_busy (by simp [hp]))
    · exact hi
    · exact absurd hp hp'
  · rcases (edgeTo_of_step h hr).i_cases with hs | ⟨hp', -⟩ | ⟨-, hi⟩
    · exact absurd hs hns
    · exact absurd hp' hp
    · exact hi

end Sys2Proof.Machine
end

section
/-! PROOFS. The command words of file 30: encoding and decoding are inverse, and what of a word its command depends on.
With it the command channel while a scan runs: an edge reads no offer but that of the command it accepts. -/

namespace Sys2Proof.Machine

open Sys2Proof

/-! ### Decode and encode (R72, R86) -/

/-- Settles O1, command by command: the opcode selects it and the fields hold its operands. -/
theorem decodeOfEncodeIsTheCommand : Obligations.DecodeOfEncodeIsTheCommand := by
  intro i hwf
  cases i with
  | scan =>
    obtain ⟨hop, -, -⟩ := Laws.EncodedFields.scan hwf
    exact decode_of_op_1 hop
  | getsq x y =>
    obtain ⟨hop, hy, hx⟩ := Laws.EncodedFields.getsq x y hwf
    rw [decode_of_op_2 hop, hx, hy]
  | getrow r =>
    obtain ⟨hop, -, hx⟩ := Laws.EncodedFields.getrow r hwf
    rw [decode_of_op_3 hop, hx]
  | seta a =>
    obtain ⟨hop, -, hx⟩ := Laws.EncodedFields.seta a hwf
    rw [decode_of_op_4 hop, hx]
  | rdo =>
    obtain ⟨hop, -, -⟩ := Laws.EncodedFields.rdo hwf
    exact decode_of_op_5 hop

/-- Settles O4: each word by its opcode. -/
theorem specWordsDecodeAsListed : Obligations.SpecWordsDecodeAsListed :=
  ⟨decode_of_op_1 rfl, decode_of_op_1 rfl, decode_of_op_2 rfl, decode_of_op_3 rfl, decode_of_op_4 rfl,
    decode_of_op_5 rfl, decode_of_illegal (.inl rfl), decode_of_illegal (.inr (by decide))⟩

/-! ### Words of one command (R73, R76) -/

/-- The two words are read as one and the same command. -/
def SameCommand (w w' : CommandWord) : Prop := ∃ i, decode w = .ok i ∧ decode w' = .ok i

/-- The two words agree in what the command of the first looks at (R74, column "operands used"). -/
def AgreeInUsedFields (w w' : CommandWord) : Prop :=
  w'.op = w.op ∧ (w.op = 0x1 ∨ w.op = 0x5 ∨ (w.op = 0x2 ∧ w'.x = w.x ∧ w'.y = w.y) ∨
    ((w.op = 0x3 ∨ w.op = 0x4) ∧ w'.x = w.x))

section
variable {w w' : CommandWord}

theorem SameCommand.op_eq (h : SameCommand w w') : w'.op = w.op := by
  obtain ⟨i, hd, hd'⟩ := h
  exact (wellFormed_and_opcode_of_decode hd').2.symm.trans (wellFormed_and_opcode_of_decode hd).2

theorem sameCommand_iff_of_decode {i i' : Instr} (h : decode w = .ok i) (h' : decode w' = .ok i') :
    SameCommand w w' ↔ i' = i := by
  simp [SameCommand, h, h', eq_comm]

/-- R76: the fields a command uses decide, opcode by opcode, and no others. -/
theorem sameCommand_iff_agreeInUsedFields : SameCommand w w' ↔ AgreeInUsedFields w w' := by
  by_cases hww : w'.op = w.op
  · rcases op_cases w with hop | hop | hop | hop | hop | hop
    · rw [sameCommand_iff_of_decode (decode_of_op_1 hop) (decode_of_op_1 (hww.trans hop))]
      simp [AgreeInUsedFields, hww, hop]
    · rw [sameCommand_iff_of_decode (decode_of_op_2 hop) (decode_of_op_2 (hww.trans hop))]
      simp [AgreeInUsedFields, hww, hop, BitVec.toNat_inj]
    · rw [sameCommand_iff_of_decode (decode_of_op_3 hop) (decode_of_op_3 (hww.trans hop))]
      simp [AgreeInUsedFields, hww, hop, BitVec.toNat_inj]
    · rw [sameCommand_iff_of_decode (decode_of_op_4 hop) (decode_of_op_4 (hww.trans hop))]
      simp [AgreeInUsedFields, hww, hop, BitVec.toNat_inj]
    · rw [sameCommand_iff_of_decode (decode_of_op_5 hop) (decode_of_op_5 (hww.trans hop))]
      simp [AgreeInUsedFields, hww, hop]
    · refine iff_of_false (fun ⟨i, hd, _⟩ => by simp [decode_of_illegal hop] at hd) fun ⟨_, h⟩ => ?_
      rcases h with h | h | ⟨h, -⟩ | ⟨h | h, -⟩ <;> simp [h] at hop
  · exact iff_of_false (fun h => hww h.op_eq) fun h => hww h.1

end

/-! ### What an edge reads of the host's schedule (R30) -/

section
variable (s : State) (h h' : HostEdge) (rest : List HostEdge)

/-- A command's edge does not read the host's entry for it. -/
theorem exec_hostIn_cons (i : Instr) :
    exec i { s with hostIn := h :: rest } = exec i { s with hostIn := h' :: rest } := by
  cases i <;> rfl

/-- The sequencer's own edge ignores what the host offers. -/
theorem sequencerEdge_hostIn_cons :
    sequencerEdge { s with hostIn := h :: s.hostIn.tail } = sequencerEdge s := rfl

end

/-- Settles O6: outside `IDLE` an offer, as well as a step with `RST = 0`, is the sequencer's own edge. -/
theorem commandsWaitWhileAScanRuns : Obligations.CommandsWaitWhileAScanRuns := by
  intro s hp
  have hstep (h : HostEdge) (hr : h.rst = false) :
      step { s with hostIn := h :: s.hostIn.tail } = sequencerEdge s :=
    (step_of_busy (s := { s with hostIn := h :: s.hostIn.tail }) hp hr).trans (sequencerEdge_hostIn_cons s h)
  refine ⟨fun i => ?_, fun h hr => (hstep h hr).trans (hstep .quiet rfl).symm⟩
  obtain ⟨body, hbody⟩ := exec_eq_acceptCommand i s
  rw [hbody, acceptCommand_of_busy hp, hstep .quiet rfl]

/-- A step that accepts a word does the same with another word of the same command. -/
theorem step_of_sameCommand (s : State) (h : HostEdge) {w : CommandWord} (rest : List HostEdge)
    (hsame : SameCommand h.cmd w) :
    step { s with hostIn := { h with cmd := w } :: rest } = step { s with hostIn := h :: rest } := by
  obtain ⟨i, hd, hd'⟩ := hsame
  rcases step_cases { s with hostIn := h :: rest } with ⟨hr, e⟩ | ⟨hr, hp, hv, e⟩ | ⟨hr, hp, hv, e⟩ | ⟨hr, hp, e⟩
  · exact (step_of_reset (s := { s with hostIn := { h with cmd := w } :: rest }) hr).trans e.symm
  · have ha : State.Accepts { s with hostIn := { h with cmd := w } :: rest } w := ⟨hp, hr, hv, rfl⟩
    rw [ha.step_eq_exec hd', e]
    exact (exec_hostIn_cons s _ h rest i).trans (acceptWord_of_decode hd _).symm
  · exact (step_of_quiet (s := { s with hostIn := { h with cmd := w } :: rest }) hp hr hv).trans e.symm
  · exact (step_of_busy (s := { s with hostIn := { h with cmd := w } :: rest }) hp hr).trans e.symm

/-- Settles O2: the fields decide the command, and the edge runs the command. -/
theorem onlyOpcodeAndUsedFieldsMatter : Obligations.OnlyOpcodeAndUsedFieldsMatter := by
  refine ⟨fun _ _ => sameCommand_iff_agreeInUsedFields, fun s h _ rest => step_of_sameCommand s h rest, ?_⟩
  simp [encode, Instr.yField, Instr.xField]

end Sys2Proof.Machine
end

section
/-! PROOFS. The sequencer of files 43 and 70 edge by edge, and runs of edges: what every run keeps, idling, and the one
edge that can stop the machine. -/

namespace Sys2Proof.Machine

open Sys2Proof

/-! ### The edges of a scan step (R190) -/

/-- Settles O21, field by field of the `ADDR` edge. -/
theorem addrEdgeDrivesTheGrayAddress : Obligations.AddrEdgeDrivesTheGrayAddress := fun s hp hr =>
  ⟨_, step_of_addr hp hr, rfl, rfl, rfl, rfl, rfl, rfl, ⟨rfl, rfl, rfl⟩, oneEdgeLater_addrEdge s⟩

/-- Settles O22: the two branches of the edge. -/
theorem waitEdgeCountsThenSamples : Obligations.WaitEdgeCountsThenSamples := by
  intro s hp hr
  by_cases hage : s.age = s.params.settleCycles
  · refine ⟨_, (step_of_wait hp hr).trans (congrArg _ (waitEdge_of_settled hage)), rfl, rfl, rfl, ⟨rfl, rfl, rfl⟩,
      oneEdgeLater_sample s _, ?_⟩
    rw [if_pos hage]
    exact ⟨rfl, rfl, ageCount_of_ge hage.ge⟩
  · refine ⟨_, (step_of_wait hp hr).trans (congrArg _ (waitEdge_of_unsettled hage)), rfl, rfl, rfl, ⟨rfl, rfl, rfl⟩,
      oneEdgeLater_edgeDefaults s, ?_⟩
    rw [if_neg hage]
    exact ⟨rfl, hp, rfl⟩

/-- R130: on a valid table the `WRIT` edge writes some board `b`, the four cells of step `I` anew, and advances. -/
theorem exists_step_of_writ {s : State} (hp : s.ph = .writ) (hc : s.cfgErr = false) (hr : (s.hostAt 0).rst = false) :
    ∃ b, step s = .next (uNext (setBoard (edgeDefaults s) b)) ∧
      (∀ (j : Line) (r c : Coord), mapPair s.params.map s.i j = (BitVec.ofNat 4 r.val, BitVec.ofNat 4 c.val) →
        cellRead b r c = !s.smp.getLsbD j) ∧
      (∀ r c : Coord, (∀ j : Line, mapPair s.params.map s.i j ≠ (BitVec.ofNat 4 r.val, BitVec.ofNat 4 c.val)) →
        cellRead b r c = s.cell r c) := by
  obtain ⟨b, hb, hcells⟩ := writeLines_of_validMap ((cfgErr_eq_false_iff s).1 hc) s.i s.smp s.brd
  exact ⟨b, (step_of_writ hp hr).trans (writEdge_of_writeLines hb), hcells⟩

/-- Settles O23: `uNEXT` in its two branches. -/
theorem writEdgeAdvancesOrEnds : Obligations.WritEdgeAdvancesOrEnds := by
  intro s hp hc hr
  obtain ⟨b, hb, -⟩ := exists_step_of_writ hp hc hr
  refine ⟨_, hb, uNext_i _, uNext_sel _, uNext_smp _, uNext_age _, oneEdgeLater_uNext s b, ?_⟩
  by_cases hi : s.i = 15
  · rw [if_pos hi, uNext_of_last (d := setBoard (edgeDefaults s) b) hi]
    exact ⟨rfl, rfl, rfl, answered_respond _ _ _⟩
  · rw [if_neg hi, uNext_of_not_last (d := setBoard (edgeDefaults s) b) hi]
    exact ⟨rfl, rfl, rfl, rfl, rfl⟩

/-- Settles O24: `uNEXT` holds the board that was written. -/
theorem writEdgeWritesFourDecodedCells : Obligations.WritEdgeWritesFourDecodedCells := by
  intro s hp hc hr
  obtain ⟨b, hb, hcells⟩ := exists_step_of_writ hp hc hr
  refine ⟨_, hb, ?_⟩
  simpa only [State.cell, uNext_brd, setBoard_brd] using hcells

/-! ### Where a step can stop (R130, D36, U7) -/

/-- R130: the four writes answer no board exactly when a pair of the word has an element above 7. -/
theorem writeLines_lines_eq_none_iff (w : RomWord) (smp : Sample) (b : Board) :
    writeLines w smp lines b = none ↔ ∃ j : Line, 7 < (romPair w j).1 ∨ 7 < (romPair w j).2 := by
  have hcell (j : Line) : romCell? w j = none ↔ 7 < (romPair w j).1 ∨ 7 < (romPair w j).2 := romCell?_eq_none_iff
  rw [← Option.not_isSome_iff_eq_none, writeLines_isSome_iff]
  simp only [mem_lines, forall_const, not_forall, Option.not_isSome_iff_eq_none, hcell]

/-- The `WRIT` edge meets a ROM element above 7, with `RST = 0`. -/
def State.MeetsBadElement (s : State) : Prop :=
  (s.hostAt 0).rst = false ∧ s.ph = .writ ∧
    ∃ j : Line, 7 < (mapPair s.params.map s.i j).1 ∨ 7 < (mapPair s.params.map s.i j).2

section
variable {s t : State}

/-- R73: every accepted word has its answer. -/
theorem exists_acceptWord_eq_next (hp : s.ph = .idle) (w : CommandWord) : ∃ t, acceptWord w s = .next t := by
  have haccept (body : State → State) : ∃ t, acceptCommand s body = .next t := by
    rcases acceptCommand_cases s body with ⟨-, -, e⟩ | ⟨-, -, e⟩ | ⟨hp', -⟩
    · exact ⟨_, e⟩
    · exact ⟨_, e⟩
    · exact absurd hp hp'
  unfold acceptWord
  split
  next i _ =>
    obtain ⟨body, hbody⟩ := exec_eq_acceptCommand i s
    exact hbody ▸ haccept body
  next => exact haccept _

/-- An edge of a scan in progress answers a next state, or faults at a `WRIT` edge on an element above 7. -/
theorem sequencerEdge_next_or_fault (hr : (s.hostAt 0).rst = false) :
    (¬ s.MeetsBadElement ∧ ∃ t, sequencerEdge s = .next t) ∨
      (s.MeetsBadElement ∧ sequencerEdge s = .fault (.romElementAboveSeven s.i)) := by
  have hnot (hp : s.ph ≠ .writ) : ¬ s.MeetsBadElement := fun ⟨_, hp', _⟩ => hp hp'
  cases hp : s.ph with
  | idle => exact .inl ⟨hnot (by simp [hp]), _, sequencerEdge_of_idle hp⟩
  | addr => exact .inl ⟨hnot (by simp [hp]), _, sequencerEdge_of_addr hp⟩
  | wait => exact .inl ⟨hnot (by simp [hp]), _, sequencerEdge_of_wait hp⟩
  | writ =>
    rw [sequencerEdge_of_writ hp]
    have hnone := writeLines_lines_eq_none_iff (romRead s.params.map s.i) s.smp s.brd
    cases hb : writeLines (romRead s.params.map s.i) s.smp lines s.brd with
    | some b =>
      refine .inl ⟨fun ⟨_, _, hbad⟩ => ?_, _, writEdge_of_writeLines hb⟩
      exact Option.some_ne_none b (hb.symm.trans (hnone.2 hbad))
    | none => exact .inr ⟨⟨hr, hp, hnone.1 hb⟩, by simp [writEdge, hb]⟩

/-- So does every step. -/
theorem step_next_or_fault (s : State) :
    (¬ s.MeetsBadElement ∧ ∃ t, step s = .next t) ∨
      (s.MeetsBadElement ∧ step s = .fault (.romElementAboveSeven s.i)) := by
  rcases step_cases s with ⟨hr, e⟩ | ⟨-, hp, -, e⟩ | ⟨-, hp, -, e⟩ | ⟨hr, -, e⟩
  · exact .inl ⟨fun ⟨hr', _⟩ => by simp [hr] at hr', _, e⟩
  · exact .inl ⟨fun ⟨_, hp', _⟩ => by simp [hp] at hp', e ▸ exists_acceptWord_eq_next hp _⟩
  · exact .inl ⟨fun ⟨_, hp', _⟩ => by simp [hp] at hp', _, e⟩
  · exact e ▸ sequencerEdge_next_or_fault hr

end

/-- Settles O25: a step answers a next state or faults on the bad element, and nothing else. -/
theorem onlyAnElementAboveSevenFaults : Obligations.OnlyAnElementAboveSevenFaults := by
  refine ⟨fun s f => ?_, fun s e he => ?_⟩
  · rcases step_next_or_fault s with ⟨hok, t, ht⟩ | ⟨hbad, hf⟩
    · exact iff_of_false (by simp [ht]) fun ⟨hr, hp, _, hj⟩ => hok ⟨hr, hp, hj⟩
    · obtain ⟨hr, hp, hj⟩ := hbad
      rw [hf, Host.Outcome.fault.injEq]
      exact ⟨fun he => ⟨hr, hp, he.symm, hj⟩, fun ⟨_, _, he, _⟩ => he.symm⟩
  · rcases step_next_or_fault s with ⟨-, t, ht⟩ | ⟨-, hf⟩
    · simp [ht] at he
    · simp [hf] at he

/-! ### What every run keeps (R32, R181) -/

theorem EdgeTo.oneEdgeLater {s t : State} (h : EdgeTo s t) : OneEdgeLater s t := by
  cases h <;> exact ⟨rfl, rfl, rfl, rfl⟩

theorem oneEdgeLater_of_step {s t : State} (h : step s = .next t) : OneEdgeLater s t := by
  cases hr : (s.hostAt 0).rst with
  | true => exact eq_resetEdge_of_step h hr ▸ oneEdgeLater_resetEdge s
  | false => exact (edgeTo_of_step h hr).oneEdgeLater

/-- A run of `n + 1` edges is a step and a run of `n`. -/
theorem runEdges_succ_eq_next {n : Nat} {s t : State} (h : runEdges (n + 1) s = .next t) :
    ∃ u, step s = .next u ∧ runEdges n u = .next t := by
  unfold runEdges at h
  split at h
  next u hu => exact ⟨u, hu, h⟩
  next => cases h
  next => cases h

/-- Over a run of `n` edges `n` edges pass and the parameters stay. -/
theorem edgesLater_of_runEdges {n : Nat} {s t : State} (h : runEdges n s = .next t) : EdgesLater n s t := by
  induction n generalizing s with
  | zero =>
    cases h
    exact ⟨rfl, rfl, rfl, rfl⟩
  | succ n ih =>
    obtain ⟨u, hu, ht⟩ := runEdges_succ_eq_next h
    rw [Nat.add_comm]
    exact (oneEdgeLater_of_step hu).edgesLater.trans (ih ht)

/-- Settles O34: the parameters and the edge number of a run, and `CFG_ERR` is made of the parameters. -/
theorem parametersNeverChange : Obligations.ParametersNeverChange := fun _ _ _ h =>
  have hl := edgesLater_of_runEdges h
  ⟨hl.params, hl.cfgErr, hl.edge⟩

/-! ### Idling (R106, R168, R190) -/

/-- `t` is the state `n` idle edges after `s`. -/
structure IdledFor (n : Nat) (s t : State) : Prop where
  later : EdgesLater n s t
  ph : t.ph = .idle
  age : t.age = min (s.age + n) s.params.settleCycles
  brd : t.brd = s.brd
  i : t.i = s.i
  sel : t.sel = s.sel
  smp : t.smp = s.smp
  rspStatus : t.rspStatus = s.rspStatus
  rspData : t.rspData = s.rspData
  rspValid : 0 < n → t.rspValid = false

/-- R31: where `AGE` is a count that saturates, one more edge is one more count. -/
theorem ageCount_min (p : Params) (n : Nat) : ageCount p (min n p.settleCycles) = min (n + 1) p.settleCycles := by
  unfold ageCount
  split <;> omega

/-- Quiet edges only idle. -/
theorem exists_idledFor {s : State} {n : Nat} (hp : s.ph = .idle) (hage : s.age ≤ s.params.settleCycles)
    (hq : s.QuietFor n) : ∃ t, runEdges n s = .next t ∧ IdledFor n s t := by
  induction n with
  | zero =>
    exact ⟨s, rfl, ⟨rfl, rfl, rfl, rfl⟩, hp, (Nat.min_eq_left hage).symm, rfl, rfl, rfl, rfl, rfl, rfl,
      fun h => by cases h⟩
  | succ n ih =>
    obtain ⟨t, ht, hi⟩ := ih fun k hk => hq k (by omega)
    have hhost : t.hostAt 0 = s.hostAt n := hi.later.hostAt 0
    obtain ⟨hr, hv⟩ := hq n (Nat.lt_succ_self n)
    rw [← hhost] at hr hv
    refine ⟨edgeDefaults t, runEdges_succ_of_run ht (step_of_quiet hi.ph hr hv),
      hi.later.trans (oneEdgeLater_edgeDefaults t).edgesLater, hi.ph, ?_, hi.brd, hi.i, hi.sel, hi.smp, hi.rspStatus,
      hi.rspData, fun _ => rfl⟩
    rw [edgeDefaults_age, hi.age, hi.later.params]
    exact ageCount_min s.params (s.age + n)

/-- Settles O20, by the idle edges taken one by one. -/
theorem idleEdgesOnlyCount : Obligations.IdleEdgesOnlyCount := by
  intro s n hp hage hq
  obtain ⟨t, ht, hi⟩ := exists_idledFor hp hage hq
  exact ⟨t, ht, hi.age, hi.ph, hi.brd, hi.i, hi.sel, hi.smp, hi.rspStatus, hi.rspData, hi.rspValid, hi.later.params,
    hi.later.edge, hi.later.hostIn, hi.later.env⟩

/-- Settles O19: `SETA` clears `AGE`, the quiet edges count it up to `SETTLE_CYCLES`, and `RDO` asks whether it got
there. -/
theorem rdoIsSettledAfterEnoughIdleEdges : Obligations.RdoIsSettledAfterEnoughIdleEdges := by
  intro s t a n hp hc hset hq
  cases (exec_seta_addr hp hc a).symm.trans hset
  obtain ⟨u, hu, hi⟩ := exists_idledFor (s := respond (uSetA (edgeDefaults s) a) .ok 0) hp (Nat.zero_le _) hq
  have hage : u.age = min n u.params.settleCycles := by
    rw [hi.age, hi.later.params, respond_age, uSetA_age, Nat.zero_add]
  have hparams : u.params = s.params := hi.later.params
  refine ⟨u, _, hu, exec_rdo hi.ph (hi.later.cfgErr.trans hc), answered_respond _ _ _, fun hle => ?_, fun hlt => ?_⟩
  · rw [← hparams] at hle
    rw [respond_smp, uRdo_smp, senseRead_of_settled (hage.trans (Nat.min_eq_right hle)), hi.later.envAt, hi.sel]
    rfl
  · rw [← hparams] at hlt
    exact senseRead_of_unsettled (by omega)

/-- R62: without a reset a step that starts no scan leaves an idle sequencer idle, and the board as it was. -/
theorem idle_and_brd_of_step {s t : State} (h : step s = .next t) (hr : (s.hostAt 0).rst = false) (hp : s.ph = .idle)
    (hns : ¬ s.StartsScan) : t.ph = .idle ∧ t.brd = s.brd := by
  have he := edgeTo_of_step h hr
  refine ⟨by_contra fun hbusy => hns (he.idle_iff.1.1 ⟨hp, hbusy⟩), ?_⟩
  rcases he.brd_cases with ⟨-, hb⟩ | ⟨hw, -⟩
  · exact hb
  · simp [hp] at hw

/-- Settles O49, by induction on the number of edges. -/
theorem boardPersistsBetweenScans : Obligations.BoardPersistsBetweenScans := by
  intro s t n hp hr hns h
  suffices hkeep : t.brd = s.brd ∧ t.ph = .idle from ⟨hkeep.1, congrArg packBoard hkeep.1, hkeep.2⟩
  induction n generalizing s with
  | zero =>
    cases h
    exact ⟨rfl, hp⟩
  | succ n ih =>
    obtain ⟨u, hu, ht⟩ := runEdges_succ_eq_next h
    have hhost (k : Nat) : u.hostAt k = s.hostAt (k + 1) := hostAt_of_tail (oneEdgeLater_of_step hu).hostIn k
    have hns0 : ¬ s.StartsScan := fun ⟨_, ⟨_, _, hv, hw⟩, hop, _⟩ => hns 0 (Nat.succ_pos n) hv (hw ▸ hop)
    obtain ⟨hpu, hbu⟩ := idle_and_brd_of_step hu (hr 0 (Nat.succ_pos n)) hp hns0
    obtain ⟨hb, hpt⟩ := ih u hpu (fun k hk => hhost k ▸ hr (k + 1) (by omega))
      (fun k hk => hhost k ▸ hns (k + 1) (by omega)) ht
    exact ⟨hb.trans hbu, hpt⟩

end Sys2Proof.Machine
end

section
/-! PROOFS. The response registers of file 60 are written and never read: every operation of an edge commutes with an
exchange of what they hold. -/

namespace Sys2Proof.Machine

open Sys2Proof

/-! ### Another status and data in the response registers -/

/-- `t` with the status `st` and the data `x` held in the response registers. -/
def holdResponse (st : Status) (x : BitVec 8) (t : State) : State := { t with rspStatus := st, rspData := x }

/-- What an edge to `t` makes of held registers `st` and `x`: the edge's own response if it gives one, and what was held
if it gives none (R29). -/
def afterHolding (st : Status) (x : BitVec 8) (t : State) : State :=
  if t.rspValid = true then t else holdResponse st x t

/-- The outcome with `f` applied to its next state. -/
def mapNext (f : State → State) : Result → Result
  | .next t => .next (f t)
  | .fault r => .fault r
  | .refused r => .refused r

/-- After an edge's defaults, which give no response yet, the register write does the same whatever the response
registers hold. -/
def ResponseBlind (f : State → State) : Prop :=
  ∀ (d : State) (st : Status) (x : BitVec 8), d.rspValid = false → f (holdResponse st x d) = afterHolding st x (f d)

theorem afterHolding_of_no_response {t : State} (h : t.rspValid = false) (st : Status) (x : BitVec 8) :
    afterHolding st x t = holdResponse st x t := by
  simp [afterHolding, h]

/-- Taking an error is a response. -/
theorem responseBlind_raiseError (code : Status) : ResponseBlind (raiseError · code) := fun _ _ _ _ => rfl

theorem responseBlind_uNext : ResponseBlind uNext := by
  intro d st x hv
  by_cases hi : d.i = 15
  · rw [uNext_of_last hi, uNext_of_last (d := holdResponse st x d) hi]
    rfl
  · rw [uNext_of_not_last hi, uNext_of_not_last (d := holdResponse st x d) hi,
      afterHolding_of_no_response (t := setPhase (setIndex d (d.i + 1)) .addr) hv]
    rfl

/-! ### Every edge with `RST = 0` -/

section
variable (s : State) (v : Bool) (st : Status) (x : BitVec 8)

/-- `s` with other response registers. -/
def State.withResponse : State := { s with rspValid := v, rspStatus := st, rspData := x }

/-- Every command's body is one function of the registers after the defaults, whatever the response registers held. -/
theorem exec_withResponse_eq_acceptCommand (i : Instr) :
    ∃ body, ResponseBlind body ∧ exec i s = acceptCommand s body ∧
      exec i (s.withResponse v st x) = acceptCommand (s.withResponse v st x) body := by
  cases i with
  | scan =>
    refine ⟨_, fun d st x hv => ?_, (rfl : execScan s = acceptCommand s _), rfl⟩
    rw [afterHolding_of_no_response (t := setPhase (setIndex d 0) .addr) hv]
    rfl
  | rdo => exact ⟨_, fun _ _ _ _ => rfl, (rfl : execRdo s = acceptCommand s _), rfl⟩
  | getsq a b =>
    exact ⟨_, fun _ _ _ _ => by split <;> rfl, (rfl : execGetsq a b s = acceptCommand s _), rfl⟩
  | getrow r => exact ⟨_, fun _ _ _ _ => by split <;> rfl, (rfl : execGetrow r s = acceptCommand s _), rfl⟩
  | seta a => exact ⟨_, fun _ _ _ _ => by split <;> rfl, (rfl : execSeta a s = acceptCommand s _), rfl⟩

/-- The defaults clear `RSP_VALID` and hold the rest. -/
theorem edgeDefaults_withResponse : edgeDefaults (s.withResponse v st x) = holdResponse st x (edgeDefaults s) := rfl

theorem acceptCommand_withResponse {body : State → State} (hp : s.ph = .idle) (hbody : ResponseBlind body) :
    acceptCommand (s.withResponse v st x) body = mapNext (afterHolding st x) (acceptCommand s body) := by
  cases hc : s.cfgErr with
  | true =>
    rw [acceptCommand_of_cfgErr hp hc, acceptCommand_of_cfgErr (s := s.withResponse v st x) hp hc]
    rfl
  | false =>
    rw [acceptCommand_of_ok hp hc, acceptCommand_of_ok (s := s.withResponse v st x) hp hc, edgeDefaults_withResponse,
      hbody _ st x rfl, mapNext]

theorem acceptWord_withResponse (hp : s.ph = .idle) (w : CommandWord) :
    acceptWord w (s.withResponse v st x) = mapNext (afterHolding st x) (acceptWord w s) := by
  cases hd : decode w with
  | ok i =>
    obtain ⟨body, hblind, he, he'⟩ := exec_withResponse_eq_acceptCommand s v st x i
    rw [acceptWord_of_decode hd, acceptWord_of_decode hd, he, he', acceptCommand_withResponse s v st x hp hblind]
  | error =>
    rw [acceptWord_of_illegal hd, acceptWord_of_illegal hd]
    exact acceptCommand_withResponse s v st x hp (responseBlind_raiseError _)

theorem waitEdge_withResponse : waitEdge (s.withResponse v st x) = afterHolding st x (waitEdge s) := by
  by_cases hage : s.age = s.params.settleCycles
  · rw [waitEdge_of_settled hage, waitEdge_of_settled (s := s.withResponse v st x) hage]
    rfl
  · rw [waitEdge_of_unsettled hage, waitEdge_of_unsettled (s := s.withResponse v st x) hage]
    rfl

theorem writEdge_withResponse : writEdge (s.withResponse v st x) = mapNext (afterHolding st x) (writEdge s) := by
  cases hb : writeLines (romRead s.params.map s.i) s.smp lines s.brd with
  | some b =>
    rw [writEdge_of_writeLines hb, writEdge_of_writeLines (s := s.withResponse v st x) hb]
    exact congrArg _ (responseBlind_uNext (setBoard (edgeDefaults s) b) st x rfl)
  | none => simp [writEdge, State.withResponse, hb, mapNext]

theorem sequencerEdge_withResponse :
    sequencerEdge (s.withResponse v st x) = mapNext (afterHolding st x) (sequencerEdge s) := by
  cases hp : s.ph with
  | idle =>
    rw [sequencerEdge_of_idle hp, sequencerEdge_of_idle (s := s.withResponse v st x) hp]
    rfl
  | addr =>
    rw [sequencerEdge_of_addr hp, sequencerEdge_of_addr (s := s.withResponse v st x) hp]
    rfl
  | wait =>
    rw [sequencerEdge_of_wait hp, sequencerEdge_of_wait (s := s.withResponse v st x) hp, waitEdge_withResponse, mapNext]
  | writ =>
    rw [sequencerEdge_of_writ hp, sequencerEdge_of_writ (s := s.withResponse v st x) hp, writEdge_withResponse]

/-- R163: with `RST = 0` a step does the same whatever the response registers hold, and gives the same response or holds
them. -/
theorem step_withResponse (hr : (s.hostAt 0).rst = false) :
    step (s.withResponse v st x) = mapNext (afterHolding st x) (step s) := by
  rcases step_cases s with ⟨hr', -⟩ | ⟨-, hp, hv, e⟩ | ⟨-, hp, hv, e⟩ | ⟨-, hp, e⟩
  · simp [hr] at hr'
  · have ha : (s.withResponse v st x).Accepts (s.hostAt 0).cmd := ⟨hp, hr, hv, rfl⟩
    rw [ha.step_eq, e, acceptWord_withResponse s v st x hp]
  · rw [e, step_of_quiet (s := s.withResponse v st x) hp hr hv]
    rfl
  · rw [e, step_of_busy (s := s.withResponse v st x) hp hr, sequencerEdge_withResponse]

end

/-- Settles O12: a reset edge clears the registers, every other edge commutes with an exchange of what they hold. -/
theorem responseRegistersAreNeverReadBack : Obligations.ResponseRegistersAreNeverReadBack := by
  intro s v st x
  cases hr : (s.hostAt 0).rst with
  | true =>
    have e : step (s.withResponse v st x) = step s :=
      (step_of_reset (s := s.withResponse v st x) hr).trans (step_of_reset hr).symm
    refine ⟨fun t ht => ?_, fun f hf => e.trans hf⟩
    rw [if_pos (.inr rfl)]
    exact e.trans ht
  | false =>
    have e : step (s.withResponse v st x) = mapNext (afterHolding st x) (step s) := step_withResponse s v st x hr
    refine ⟨fun t ht => ?_, fun f hf => e.trans (congrArg (mapNext _) hf)⟩
    simp only [Bool.false_eq_true, or_false]
    exact e.trans (congrArg (mapNext _) ht)

end Sys2Proof.Machine
end

section
/-! PROOFS. The invariant of Safety.lean: it holds after reset, every step keeps it, and under it no run stops. -/

namespace Sys2Proof.Machine

open Sys2Proof

/-! ### Reset (R180) -/

theorem inResetState_resetOf (p : Params) : InResetState (State.resetOf p) := by
  constructor
  case brd => exact cellRead_replicate_zero
  all_goals rfl

/-- Settles O37, with the cells of a cleared board. -/
theorem resetStateHoldsResetValues : Obligations.ResetStateHoldsResetValues :=
  ⟨fun p => ⟨inResetState_resetOf p, rfl⟩, inResetState_resetOf referenceParams⟩

/-- The reset values meet the invariant wherever `SETTLE_CYCLES` is at least 1. -/
theorem InResetState.inv {t : State} (h : InResetState t) (hpos : 1 ≤ t.params.settleCycles) : t.Inv where
  settlePos := hpos
  ageBound := h.age ▸ Nat.zero_le _
  idleIndex _ := h.i
  scanValid hp := absurd h.ph hp
  addrSel hp := by simp [h.ph] at hp
  stepSel hp := by simp [h.ph] at hp
  writSettled hp := by simp [h.ph] at hp
  errorData hst := absurd h.rspStatus hst
  validIdle hv := by simp [h.rspValid] at hv
  cfgErrFrozen _ :=
    ⟨board_eq_of_cells fun r c => (h.brd r c).trans (cellRead_replicate_zero r c).symm, h.sel, h.smp⟩

/-- Settles O50: the reset values meet the invariant. -/
theorem resetMeetsTheInvariant : Obligations.ResetMeetsTheInvariant :=
  ⟨(inResetState_resetOf referenceParams).inv (Nat.le_refl 1), fun p hpos => (inResetState_resetOf p).inv hpos⟩

/-! ### Every kind of edge keeps each clause -/

section
variable {s t : State}

/-- R23: `I` comes to `IDLE` as 0. -/
theorem EdgeTo.idleIndex (h : EdgeTo s t) (hs : s.Inv) (hp : t.ph = .idle) : t.i = 0 := by
  cases h with
  | idle hp' => exact hs.idleIndex hp'
  | answer ha | seta ha | rdo ha => exact hs.idleIndex ha.1
  | last => rfl
  | count hp' => cases hp'.symm.trans hp
  | scan | addr | sample | writ => cases hp

/-- R157: a scan starts on a valid table only. -/
theorem EdgeTo.scanValid (h : EdgeTo s t) (hs : s.Inv) (hp : t.ph ≠ .idle) : t.cfgErr = false := by
  have hcfg : t.cfgErr = s.cfgErr := by simp only [State.cfgErr, h.params_eq]
  rw [hcfg]
  by_cases hps : s.ph = .idle
  · exact (h.idle_iff.1.1 ⟨hps, hp⟩).cfgErr
  · exact hs.scanValid hps

/-- R126: a step leaves the select lines at its own address for the `ADDR` edge of the next. -/
theorem EdgeTo.addrSel (h : EdgeTo s t) (hs : s.Inv) (hp : t.ph = .addr) (hi : t.i ≠ 0) : t.sel = gray (t.i - 1) := by
  cases h with
  | writ hp' => simp [hs.stepSel (.inr hp')]
  | scan => exact absurd rfl hi
  | idle hp' | count hp' => cases hp'.symm.trans hp
  | answer ha | seta ha | rdo ha => cases ha.1.symm.trans hp
  | addr | sample | last => cases hp

/-- R126: the `ADDR` edge puts the step's address on the select lines, where it stays. -/
theorem EdgeTo.stepSel (h : EdgeTo s t) (hs : s.Inv) (hp : t.ph = .wait ∨ t.ph = .writ) : t.sel = gray t.i := by
  cases h with
  | addr => rfl
  | count hp' | sample hp' => exact hs.stepSel (.inl hp')
  | idle hp' => simp [hp'] at hp
  | answer ha | seta ha | rdo ha => simp [ha.1] at hp
  | scan | writ | last => simp at hp

/-- R127: the sampling edge leaves `AGE` at `SETTLE_CYCLES`. -/
theorem EdgeTo.writSettled (h : EdgeTo s t) (hp : t.ph = .writ) : t.age = t.params.settleCycles := by
  cases h with
  | sample _ hage => exact (ageCount_of_ge hage.ge).trans hage
  | idle hp' | count hp' => cases hp'.symm.trans hp
  | answer ha | seta ha | rdo ha => cases ha.1.symm.trans hp
  | scan | addr | writ | last => cases hp

/-- R77: every response with a status other than `OK` has zero data. -/
theorem EdgeTo.errorData (h : EdgeTo s t) (hs : s.Inv) (hst : t.rspStatus ≠ .ok) : t.rspData = 0 := by
  cases h with
  | answer _ hans => exact hans.data_eq_zero hst
  | seta | rdo | last => exact absurd rfl hst
  | idle | scan | addr | count | sample | writ => exact hs.errorData hst

/-- R125, R162: a response is given as the sequencer is or comes to be idle. -/
theorem EdgeTo.validIdle (h : EdgeTo s t) (hv : t.rspValid = true) : t.ph = .idle := by
  cases h with
  | answer ha | seta ha | rdo ha => exact ha.1
  | last => rfl
  | idle | scan | addr | count | sample | writ => cases hv

/-- R157: a state with `CFG_ERR` that meets the invariant is frozen, and stays so. -/
theorem State.Inv.frozen (hs : s.Inv) (hc : s.cfgErr = true) : s.Frozen := by
  obtain ⟨hbrd, hsel, hsmp⟩ := hs.cfgErrFrozen hc
  refine ⟨hc, by_contra fun hp => ?_, hbrd, hsel, hsmp⟩
  simp [hs.scanValid hp] at hc

theorem State.Inv.of_step (hs : s.Inv) (h : step s = .next t) : t.Inv := by
  have hparams : t.params = s.params := (oneEdgeLater_of_step h).params
  have hpos : 1 ≤ t.params.settleCycles := hparams ▸ hs.settlePos
  cases hr : (s.hostAt 0).rst with
  | true =>
    obtain rfl := eq_resetEdge_of_step h hr
    exact (inResetState_resetEdge s).inv hpos
  | false =>
    have he := edgeTo_of_step h hr
    exact
      { settlePos := hpos
        ageBound := step_keeps_ageBound h hs.ageBound
        idleIndex := he.idleIndex hs
        scanValid := he.scanValid hs
        addrSel := he.addrSel hs
        stepSel := he.stepSel hs
        writSettled := he.writSettled
        errorData := he.errorData hs
        validIdle := he.validIdle
        cfgErrFrozen := fun hc =>
          have hf : t.Frozen := (hs.frozen ((step_keeps_cfgErr h).symm.trans hc)).of_step h
          ⟨hf.brd, hf.sel, hf.smp⟩ }

/-! ### No run stops (R155, R193) -/

/-- Under the invariant a scan runs on a valid table only, where no element is above 7. -/
theorem State.Inv.not_meetsBadElement (hs : s.Inv) : ¬ s.MeetsBadElement := by
  rintro ⟨-, hp, j, hj⟩
  have hc : s.cfgErr = false := hs.scanValid (by simp [hp])
  obtain ⟨hrow, hcol⟩ := mapPair_le (rangeOk_of_validMap ((cfgErr_eq_false_iff s).1 hc)) s.i j
  rcases hj with hj | hj
  · exact absurd hrow (BitVec.not_le.2 hj)
  · exact absurd hcol (BitVec.not_le.2 hj)

theorem State.Inv.exists_step (hs : s.Inv) : ∃ t, step s = .next t := by
  rcases step_next_or_fault s with ⟨-, ht⟩ | ⟨hbad, -⟩
  · exact ht
  · exact absurd hbad hs.not_meetsBadElement

end

/-- Settles O51, each clause by what the kinds of edges do to its registers. -/
theorem everyStepKeepsTheInvariant : Obligations.EveryStepKeepsTheInvariant :=
  fun _ _ hs h => hs.of_step h

/-- Settles O52, by induction on the number of edges. -/
theorem noRunStops : Obligations.NoRunStops := by
  intro s n hs
  induction n with
  | zero => exact ⟨s, rfl, hs⟩
  | succ n ih =>
    obtain ⟨t, ht, hti⟩ := ih
    obtain ⟨u, hu⟩ := hti.exists_step
    exact ⟨u, runEdges_succ_of_run ht hu, hti.of_step hu⟩

end Sys2Proof.Machine
end

section
/-! PROOFS. The scan of file 43 as a program sees it: its steps, the completed board, the board on the way, the one
response, and what a reset makes of it. -/

namespace Sys2Proof.Machine

open Sys2Proof

/-! ### The steps and the end of a scan (R126, R127, R132) -/

/-- Settles O40, by the three stations of a scan step. -/
theorem scanStepIsAddressSettleSampleWrite : Obligations.ScanStepIsAddressSettleSampleWrite := by
  intro s hp hc hr
  refine ⟨fun n hn => ?_, ?_, ?_⟩
  · obtain ⟨t, ht, hw⟩ := exists_scanWaits hp hn fun k hk => hr k (by unfold stepEdges; omega)
    exact ⟨t, ht, hw.ph, hw.sel, hw.i, hw.age, hw.brd, hw.smp⟩
  · obtain ⟨t, ht, hs⟩ := exists_scanSampled hp fun k hk => hr k (by unfold stepEdges; omega)
    exact ⟨t, ht, hs.ph, hs.sel, hs.i, hs.smp, hs.brd⟩
  · obtain ⟨t, ht, hd⟩ := exists_scanStepDone hp hc hr
    exact ⟨t, ht, hd.i, hd.ph, hd.sel, hd.age, hd.smp, hd.named, hd.other⟩

/-- Settles O41: sixteen steps, and in a valid table every cell has its channel. -/
theorem completedScanIsTheDecodedBoard : Obligations.CompletedScanIsTheDecodedBoard := by
  intro s hs hr
  obtain ⟨t, ht, hst⟩ := exists_scanCompleted hs hr
  exact ⟨t, ht, hst.i, hst.ph, hst.sel, hst.age, hst.smp, hst.answered, hst.cells,
    exists_channel_of_cell ((cfgErr_eq_false_iff s).1 hs.cfgErr)⟩

/-! ### The addresses of a scan (R92) -/

theorem gray_grayInv : ∀ a : Addr, gray (grayInv a) = a := by decide

theorem grayInv_gray : ∀ i : Addr, grayInv (gray i) = i := by decide

/-- R92: bit `k` of `GRAYINV(a)` is the exclusive or of the bits of `a` from `k` up. -/
theorem grayInv_getLsbD : ∀ a : Addr,
    (grayInv a).getLsbD 3 = a.getLsbD 3 ∧ (grayInv a).getLsbD 2 = (a.getLsbD 3 ^^ a.getLsbD 2) ∧
      (grayInv a).getLsbD 1 = (a.getLsbD 3 ^^ a.getLsbD 2 ^^ a.getLsbD 1) ∧
      (grayInv a).getLsbD 0 = (a.getLsbD 3 ^^ a.getLsbD 2 ^^ a.getLsbD 1 ^^ a.getLsbD 0) := by
  decide

/-- R193: the steps up to number `k` end within the scan. -/
theorem stepEdges_mul_le_scanEdges (p : Params) (k : Addr) : 1 + (k.toNat + 1) * stepEdges p ≤ scanEdges p := by
  have hmul : (k.toNat + 1) * stepEdges p ≤ 16 * stepEdges p := Nat.mul_le_mul_right _ k.isLt
  unfold scanEdges
  omega

/-- Settles O43: step `GRAYINV(a)` is reached, and its `ADDR` edge drives `GRAY(GRAYINV(a)) = a`. -/
theorem scanVisitsEveryAddressAtItsIndex : Obligations.ScanVisitsEveryAddressAtItsIndex := by
  refine ⟨fun a => ⟨gray_grayInv a, grayInv_gray a, grayInv_getLsbD a⟩, fun s a hs hr => ?_⟩
  have hle := stepEdges_mul_le_scanEdges s.params (grayInv a)
  have hpos : 1 ≤ stepEdges s.params := Nat.le_add_left 1 _
  rw [Nat.succ_mul] at hle
  obtain ⟨t, ht, hp, hprog⟩ := exists_scanProgress hs (grayInv a).isLt fun k hk => hr k (by omega)
  have hi : t.i = grayInv a := hprog.i.trans (by simp)
  have hrt : (t.hostAt 0).rst = false := hprog.later.rst_eq_false hr (by omega)
  exact ⟨addrEdge t, runEdges_succ_of_run ht (step_of_addr hp hrt), by rw [← gray_grayInv a, ← hi]; rfl, rfl, hi⟩

/-! ### Between two `WRIT` edges (R136) -/

section
variable {s t : State} {n : Nat}

/-- Inside a scan step the sequencer is busy, and the board is as the step found it. -/
theorem exists_busy_of_addr (hp : s.ph = .addr) (hn : n < stepEdges s.params) (hr : s.NoResetFor n) :
    ∃ t, runEdges n s = .next t ∧ t.ph ≠ .idle ∧ t.brd = s.brd := by
  cases n with
  | zero => exact ⟨s, rfl, by simp [hp], rfl⟩
  | succ n =>
    unfold stepEdges at hn
    rcases Nat.lt_or_ge s.params.settleCycles n with hlt | hle
    · obtain rfl : n = s.params.settleCycles + 1 := by omega
      obtain ⟨t, ht, hs⟩ := exists_scanSampled hp hr
      exact ⟨t, ht, by simp [hs.ph], hs.brd⟩
    · obtain ⟨t, ht, hw⟩ := exists_scanWaits hp hle hr
      exact ⟨t, ht, by simp [hw.ph], hw.brd⟩

/-- `n` edges into step `k` of a scan the sequencer is busy, and the steps before `k` have written their cells. -/
theorem exists_scanStep_busy {k : Nat} (hs : s.StartsScan) (hk : k < 16) (hn : n < stepEdges s.params)
    (hr : s.NoResetFor (1 + k * stepEdges s.params + n)) :
    ∃ u t, ScanProgress s k u ∧ runEdges (1 + k * stepEdges s.params + n) s = .next t ∧ t.ph ≠ .idle ∧
      t.brd = u.brd := by
  obtain ⟨u, hu, hp, hprog⟩ := exists_scanProgress hs hk fun j hj => hr j (by omega)
  obtain ⟨t, ht, hbusy, hb⟩ := exists_busy_of_addr hp (by rwa [hprog.later.params])
    (hprog.later.noResetFor hr (Nat.le_refl _))
  exact ⟨u, t, hprog, (runEdges_add hu n).trans ht, hbusy, hb⟩

end

/-- Settles O42: in the edges of the next step the board is that after step `k`; after step 15 the scan is completed. -/
theorem boardDuringAScanIsPartlyUpdated : Obligations.BoardDuringAScanIsPartlyUpdated := by
  intro s k n hs hr hn hlast
  have hport (t : State) (r c : Coord) : t.outputs.board.getLsbD (8 * r.val + c.val) = t.cell r c :=
    packBoard_getLsbD t.brd r c
  simp only [hport, ← Nat.lt_succ_iff]
  by_cases hk : k.toNat + 1 < 16
  · obtain ⟨u, t, hprog, ht, -, hb⟩ := exists_scanStep_busy hs hk hn hr
    refine ⟨t, ht, ?_⟩
    simpa only [State.cell, hb] using hprog.cells
  · have h15 : k = 15 := BitVec.eq_of_toNat_eq (show k.toNat = 15 by omega)
    obtain rfl := hlast h15
    subst h15
    obtain ⟨t, ht, hst⟩ := exists_scanCompleted hs hr
    exact ⟨t, ht, fun i j r c hj => (hst.cells i j r c hj).trans (if_pos i.isLt).symm⟩

/-! ### The responses of a scan (R182, R188) -/

section
variable {s t : State} {n : Nat}

/-- R125, R162: a step that leaves the sequencer busy gives no response. -/
theorem rspValid_eq_false_of_step (h : step s = .next t) (hp : t.ph ≠ .idle) : t.rspValid = false := by
  cases hr : (s.hostAt 0).rst with
  | true => exact eq_resetEdge_of_step h hr ▸ rfl
  | false => exact Bool.eq_false_of_not_eq_true fun hv => hp ((edgeTo_of_step h hr).validIdle hv)

theorem runEdges_one (s : State) : runEdges 1 s = step s := by
  unfold runEdges
  cases step s <;> rfl

/-- The last step of a run. -/
theorem exists_last_step_of_run (h : runEdges (n + 1) s = .next t) :
    ∃ u, runEdges n s = .next u ∧ step u = .next t := by
  induction n generalizing s with
  | zero =>
    obtain ⟨u, hu, ht⟩ := runEdges_succ_eq_next h
    cases ht
    exact ⟨s, rfl, hu⟩
  | succ n ih =>
    obtain ⟨v, hv, hrun⟩ := runEdges_succ_eq_next h
    obtain ⟨u, hu, ht⟩ := ih hrun
    exact ⟨u, (runEdges_succ_of_step hv n).trans hu, ht⟩

/-- R188 (b): a scan is busy from its accepting edge to its last, and so gives no response on the way. -/
theorem rspValid_eq_false_of_scan (hs : s.StartsScan) (hn : n < 16 * stepEdges s.params) (hr : s.NoResetFor (n + 1))
    (h : runEdges (n + 1) s = .next t) : t.rspValid = false := by
  have hpos : 0 < stepEdges s.params := Nat.succ_pos _
  have hdiv : n / stepEdges s.params * stepEdges s.params + n % stepEdges s.params = n := Nat.div_add_mod' n _
  have hsplit : n + 1 = 1 + n / stepEdges s.params * stepEdges s.params + n % stepEdges s.params := by omega
  obtain ⟨_, t', -, ht', hbusy, -⟩ := exists_scanStep_busy hs (Nat.div_lt_of_lt_mul (Nat.mul_comm .. ▸ hn))
    (Nat.mod_lt n hpos) (hsplit ▸ hr)
  cases (hsplit ▸ h).symm.trans ht'
  obtain ⟨u, -, hu⟩ := exists_last_step_of_run h
  exact rspValid_eq_false_of_step hu hbusy

/-- The responses of a run are that of its first edge and those of the rest. -/
theorem responsesOver_succ_of_step (h : step s = .next t) (n : Nat) :
    responsesOver (n + 1) s = (if t.rspValid then [(t.rspStatus, t.rspData)] else []) ++ responsesOver n t := by
  simp only [responsesOver, h]

/-- No responses are given over a run none of whose edges gives one. -/
theorem responsesOver_eq_nil (h : ∀ m t, m < n → runEdges (m + 1) s = .next t → t.rspValid = false) :
    responsesOver n s = [] := by
  induction n generalizing s with
  | zero => rfl
  | succ n ih =>
    cases hu : step s with
    | next u =>
      have hv : u.rspValid = false := h 0 u (Nat.succ_pos n) (runEdges_succ_of_step hu 0)
      rw [responsesOver_succ_of_step hu, hv,
        ih fun m t hm ht => h (m + 1) t (by omega) ((runEdges_succ_of_step hu _).trans ht)]
      rfl
    | fault | refused => simp only [responsesOver, hu]

/-- The responses of a run are those of its beginning and that of its last edge. -/
theorem responsesOver_succ (h : runEdges (n + 1) s = .next t) :
    responsesOver (n + 1) s = responsesOver n s ++ if t.rspValid then [(t.rspStatus, t.rspData)] else [] := by
  induction n generalizing s with
  | zero =>
    obtain ⟨u, hu, ht⟩ := runEdges_succ_eq_next h
    cases ht
    exact (responsesOver_succ_of_step hu 0).trans (List.append_nil _)
  | succ n ih =>
    obtain ⟨u, hu, ht⟩ := runEdges_succ_eq_next h
    rw [responsesOver_succ_of_step hu, responsesOver_succ_of_step hu, ih ht, List.append_assoc]

end

/-- Settles O47: the edges before the last leave the sequencer busy, and the last one answers. -/
theorem scanGivesExactlyOneResponse : Obligations.ScanGivesExactlyOneResponse := by
  intro s hs hr
  obtain ⟨t, ht, hst⟩ := exists_scanCompleted hs hr
  have hsucc : scanEdges s.params = 16 * stepEdges s.params + 1 := Nat.add_comm ..
  have hnil : responsesOver (16 * stepEdges s.params) s = [] := responsesOver_eq_nil fun m _ hm h =>
    rspValid_eq_false_of_scan hs hm (fun k hk => hr k (by omega)) h
  rw [hsucc] at ht ⊢
  refine ⟨hnil, ?_⟩
  rw [responsesOver_succ ht, hnil, hst.answered.valid, hst.answered.status, hst.answered.data]
  rfl

/-- Settles O36: before the reset edge the scan is busy, and after it the host idles. -/
theorem abandonedScanNeverAnswers : Obligations.AbandonedScanNeverAnswers := by
  intro s t k n hs hr hrst hk hq h
  obtain ⟨u, hu, hut⟩ := exists_last_step_of_run h
  have hrst_u : (u.hostAt 0).rst = true := ((edgesLater_of_runEdges hu).hostAt 0).symm ▸ hrst
  obtain rfl := eq_resetEdge_of_step hut hrst_u
  have hquiet : (resetEdge u).QuietFor n := fun m hm => by
    rw [(edgesLater_of_runEdges h).hostAt]
    exact hq m hm
  refine ⟨inResetState_resetEdge u, responsesOver_eq_nil fun m v hm hv => ?_⟩
  rcases Nat.lt_trichotomy m (k + 1) with hlt | rfl | hgt
  · exact rspValid_eq_false_of_scan hs (by omega) (fun j hj => hr j (by omega)) hv
  · cases h.symm.trans hv
    rfl
  · obtain ⟨j, rfl⟩ : ∃ j, m = k + 2 + j := ⟨m - (k + 2), by omega⟩
    obtain ⟨w, hw, hi⟩ := exists_idledFor (s := resetEdge u) (n := j + 1) rfl (Nat.zero_le _)
      fun i hi => hquiet i (by omega)
    cases hv.symm.trans ((runEdges_add h (j + 1)).trans hw)
    exact hi.rspValid (Nat.succ_pos j)

/-! ### The state a scan leaves (R109, R131, R188) -/

/-- R131: all registers a completed scan leaves are made of the table, the environment and the number of edges. -/
theorem ScanCompleted.eq {s s' t t' : State} (h : ScanCompleted s t) (h' : ScanCompleted s' t')
    (hc : s.cfgErr = false) (hparams : s'.params = s.params) (hedge : s'.edge = s.edge) (hhost : s'.hostIn = s.hostIn)
    (henv : s'.env = s.env) : t' = t := by
  have henvAt (k : Nat) (a : Addr) : s'.envAt k a = s.envAt k a := by simp only [State.envAt, henv, hedge]
  have hbrd : t'.brd = t.brd := board_eq_of_cells fun r c => by
    obtain ⟨i, j, hj⟩ := exists_channel_of_cell ((cfgErr_eq_false_iff s).1 hc) r c
    refine (h'.cells i j r c (hparams ▸ hj)).trans ?_
    rw [henvAt, hparams]
    exact (h.cells i j r c hj).symm
  have hsmp : t'.smp = t.smp := by rw [h'.smp, h.smp, henvAt, hparams]
  have hage : t'.age = t.age := by rw [h'.age, h.age, hparams]
  have hlater := hparams ▸ h'.later
  have hedge' : t'.edge = t.edge := by rw [hlater.edge, h.later.edge, hedge]
  have hhost' : t'.hostIn = t.hostIn := by rw [hlater.hostIn, h.later.hostIn, hhost]
  have henv' : t'.env = t.env := by rw [hlater.env, h.later.env, henv]
  have hparams' : t'.params = t.params := by rw [hlater.params, h.later.params, hparams]
  cases t
  cases t'
  rw [State.mk.injEq]
  exact ⟨hbrd, h'.i.trans h.i.symm, h'.ph.trans h.ph.symm, h'.sel.trans h.sel.symm, hsmp, hage,
    h'.answered.valid.trans h.answered.valid.symm, h'.answered.status.trans h.answered.status.symm,
    h'.answered.data.trans h.answered.data.symm, hparams', hedge', hhost', henv'⟩

/-- Settles O46: the same `SCAN` starts in both states, and the two completed scans leave one state. -/
theorem scanForgetsWhatWasBefore : Obligations.ScanForgetsWhatWasBefore := by
  intro s s' hs hr hp' hparams hedge hhost henv
  have hhostAt (k : Nat) : s'.hostAt k = s.hostAt k := by simp only [State.hostAt, hhost]
  have hs' : s'.StartsScan := by
    obtain ⟨w, ⟨-, hoffers⟩, hop, hc⟩ := hs
    refine ⟨w, ⟨hp', ?_⟩, hop, by rwa [State.cfgErr, hparams]⟩
    rwa [State.Offers, hhostAt]
  obtain ⟨t, ht, hst⟩ := exists_scanCompleted hs hr
  obtain ⟨t', ht', hst'⟩ := exists_scanCompleted hs' fun k hk => hhostAt k ▸ hr k (hparams ▸ hk)
  obtain rfl := hst.eq hst' hs.cfgErr hparams hedge hhost henv
  exact ⟨t', ht, hparams ▸ ht'⟩

/-- Settles O48: the completed scan leaves the sequencer idle, and the word is still there. -/
theorem commandHeldThroughAScanIsAccepted : Obligations.CommandHeldThroughAScanIsAccepted := by
  intro s w i hs hd hr hheld
  obtain ⟨t, ht, hst⟩ := exists_scanCompleted hs hr
  have hpos : 1 ≤ scanEdges s.params := Nat.zero_lt_of_lt (sampleEdge_lt_scanEdges s.params 0)
  have hhost : t.hostAt 0 = HostEdge.offer w := (hst.later.hostAt 0).trans (hheld _ hpos (Nat.le_refl _))
  have ha : t.Accepts w := ⟨hst.ph, by simp [State.Offers, hhost, HostEdge.offer]⟩
  refine ⟨t, ht, hst.answered.valid, ha, ?_⟩
  rw [runEdges_add ht, runEdges_one, ha.step_eq_exec hd]

end Sys2Proof.Machine
end
